-- ==== Sys2Proof/Word.lean ====
section
/-! DEFINITION. The block's word type and its plainest arithmetic (00_scope.md R7): a byte is an 8-bit unsigned value,
`be16` joins two bytes with the first one high. Everything else the block computes is on natural numbers (R7, R111). -/

namespace Sys2Proof

/-- R7: "A *byte* is an 8-bit unsigned value, 0 to 255." -/
abbrev Byte := BitVec 8

/-- R7: `be16(a, b) = a * 256 + b`, the 16-bit value with byte `a` high and byte `b` low. -/
def be16 (a b : Byte) : BitVec 16 := (a.setWidth 16 <<< 8) ||| b.setWidth 16

end Sys2Proof
end

