-- ==== Sys2Proof/Syntax.lean ====
section
/-! DEFINITION. The syntax, whole: `Instr`, one constructor for each row of spec/opcode_table.json with the operands the
rules give it (30_encoding.md R55, R56), and `Request`, the request fields of the command port (R54), which are what a
command is encoded in. -/

namespace Sys2Proof

/-- One constructor per row of the opcode table: seven host commands, the reserved opcode, and the two internal steps
that have no opcode (R56). A command holds only its own operands (R54). -/
inductive Instr where
  /-- RECEIVE, format C, R98. -/
  | receive (chunk : List Byte)
  /-- CURRENT_HEADER, format N, R99. -/
  | currentHeader
  /-- PULL_PACKET, format N, R101. -/
  | pullPacket
  /-- REMAINING, format N, R72. -/
  | remaining
  /-- PEEK, format P, R74: `off` bytes after the cursor, `len` bytes wanted. -/
  | peek (off len : Nat)
  /-- DECODE, format S, R80: `slice[47:40] = b0` down to `slice[7:0] = b5`. -/
  | decode (slice : BitVec 48)
  /-- RESOLVE, format N, R90. -/
  | resolve
  /-- RESERVED_7, format N, R60: the one value of `op` that selects no operation. -/
  | reserved7
  /-- INGEST, internal, R70: reached only through RECEIVE. -/
  | ingest (bytes : List Byte)
  /-- ADVANCE, internal, R73: reached only through PULL_PACKET. -/
  | advance (n : Nat)
  deriving DecidableEq, Repr

/-- R54: the request fields of one transaction at the command port. A field the selected operation does not use is
carried by the port and ignored by the block. -/
structure Request where
  op : BitVec 3
  chunk : List Byte
  slice : BitVec 48
  off : Nat
  len : Nat
  deriving DecidableEq, Repr

end Sys2Proof
end

