-- ==== Sys2Proof/WellFormed.lean ====
section
/-! DEFINITION. Which instructions are well formed as commands of the host. The operands of every command are typed, so
nothing else can be wrong with one (30_encoding.md R61, R62); what can be wrong is that an internal step is issued at the
port (R56, 60_exceptions.md R129). -/

namespace Sys2Proof

/-- Why an instruction is no command of the port: one name for each check. -/
inductive IllFormed where
  /-- R56: INGEST has no opcode, it "is reached only through `receive`". -/
  | ingestIsInternal
  /-- R56: ADVANCE has no opcode, "`advance` is kept from the host". -/
  | advanceIsInternal
  deriving DecidableEq, Repr

/-- The check, by name. -/
def Instr.check : Instr → Option IllFormed
  | .receive _ => none
  | .currentHeader => none
  | .pullPacket => none
  | .remaining => none
  | .peek _ _ => none
  | .decode _ => none
  | .resolve => none
  | .reserved7 => none
  | .ingest _ => some .ingestIsInternal
  | .advance _ => some .advanceIsInternal

/-- An instruction the command port can carry: one with an `op` value (R56), the reserved one among them (R60). -/
abbrev Instr.WellFormed (i : Instr) : Prop := i.check = none

end Sys2Proof
end

