-- ==== Sys2Proof/Decode.lean ====
section
/-! DEFINITION. The port's decoder and encoder (30_encoding.md R54 to R56, R60, R63): the format follows from `op` alone,
all eight values of the three bits select something, and no value selects an internal step. Also the words of
spec/opcode_table.json, which hold `op[2:0]` and no operand. -/

namespace Sys2Proof

/-- R56: the opcode map. Total: every value of `op` has its own row, the reserved one (R60) among them. Fields that the
selected operation does not use are ignored (R54). -/
def decodeRequest (r : Request) : Instr :=
  match r.op.toFin with
  | 0 => .receive r.chunk
  | 1 => .currentHeader
  | 2 => .pullPacket
  | 3 => .remaining
  | 4 => .peek r.off r.len
  | 5 => .decode r.slice
  | 6 => .resolve
  | 7 => .reserved7

/-- A request with every operand field at zero or empty (the operand words of zeros of a table row). -/
def Request.bare (op : BitVec 3) : Request where
  op := op
  chunk := []
  slice := 0
  off := 0
  len := 0

/-- R54 to R56: the request a host sends for an instruction, unused fields zero; none for the internal steps, which have
no opcode. -/
def encode : Instr → Option Request
  | .receive chunk => some { Request.bare 0 with chunk := chunk }
  | .currentHeader => some (Request.bare 1)
  | .pullPacket => some (Request.bare 2)
  | .remaining => some (Request.bare 3)
  | .peek off len => some { Request.bare 4 with off := off, len := len }
  | .decode slice => some { Request.bare 5 with slice := slice }
  | .resolve => some (Request.bare 6)
  | .reserved7 => some (Request.bare 7)
  | .ingest _ => none
  | .advance _ => none

/-- R54: the same request with the fields its operation ignores set to zero. -/
def Request.canonical (r : Request) : Request where
  op := r.op
  chunk := if r.op = 0 then r.chunk else []
  slice := if r.op = 5 then r.slice else 0
  off := if r.op = 4 then r.off else 0
  len := if r.op = 4 then r.len else 0

/-- Why the bits of a table word are no request. -/
inductive DecodeError where
  /-- Fewer than the three bits of `op` (R6 `OPW`): the rows INGEST and ADVANCE, which have no encoding. -/
  | noOpcode
  deriving DecidableEq, Repr

/-- The request a word of spec/opcode_table.json stands for: `op` is its bits 2..0 (the rows' mask is 7), every operand
is zero or empty. Bits above bit 2 belong to no request field and are ignored (assumption 4). -/
def tableRequest (nbits w : Nat) : Except DecodeError Request :=
  if nbits < 3 then .error .noOpcode else .ok (Request.bare (BitVec.ofNat 3 w))

/-- The instruction the decoder reads from a table word, none where there is no opcode. -/
def decodeTableWord (nbits w : Nat) : Option Instr :=
  match tableRequest nbits w with
  | .ok r => some (decodeRequest r)
  | .error _ => none

end Sys2Proof
end

