-- ==== Sys2Proof/Config.lean ====
section
/-! DEFINITION. What an implementation fixes (00_scope.md R6): the numbers the source fixes, the byte order constant
(10_state.md R15), and the one open parameter of the spec, the capacity `CAP` (92_eei_decisions.md D4).
The spec leaves no value of any result open, so there is no free value here. -/

namespace Sys2Proof

/-- R9: the type of byte orders. Only `big` is ever produced (D14). -/
inductive ByteOrder where
  | big
  | little
  deriving DecidableEq, Repr

/-- D14: the 1-bit coding, `BIG` = 0 and `LITTLE` = 1. -/
def ByteOrder.code : ByteOrder → BitVec 1
  | .big => 0
  | .little => 1

/-- R15: `BYTE_ORDER = BIG` is a constant of the block; nothing can write it. -/
def byteOrder : ByteOrder := .big

/-- R6: `HDR_LEN`, the bytes in a Primary Header. -/
def hdrLen : Nat := 6

/-- R6, R38: `MIN_TOTAL`, the smallest total packet length in bytes. -/
def minTotal : Nat := 7

/-- R6, R38: `MAX_TOTAL`, the largest total packet length in bytes. -/
def maxTotal : Nat := 65542

/-- The implementation parameters a builder fixes and no command changes. `cap` is `CAP` of R6: `none` is the decided
unbounded store, `some c` the finite variant of R71, with the bound on live bytes. -/
structure Config where
  cap : Option Nat
  deriving DecidableEq, Repr

/-- D4: "`CAP` unbounded". -/
def Config.decided : Config where
  cap := none

end Sys2Proof
end

