-- ==== Sys2Proof/Machine/State.lean ====
section
/-! DEFINITION. The state as plain data. `Block` is the four pieces of architectural state "and no more" (10_state.md R10
to R14); `State` puts beside it what the two agents exchange at the command port (00_scope.md R5): the commands the host
still has to issue, the transcript of what was answered, the result of an internal step run on its own, and the parameter
`CAP`, which nothing writes. -/

namespace Sys2Proof.Machine

/-- R13: the three states of the Packet Extractor. -/
inductive St where
  /-- "no header currently decoded" -/
  | empty
  /-- "a PrimaryHeader has been decoded at the cursor but its packet has not yet been pulled" -/
  | headerReady
  /-- a PULL_PACKET found fewer than 6 bytes at the cursor and nothing has happened since to leave (D22) -/
  | exhausted
  deriving DecidableEq, Repr

/-- R13, D6: the coding; the value 3 is unused. -/
def St.code : St → BitVec 2
  | .empty => 0
  | .headerReady => 1
  | .exhausted => 2

/-- R9, R14: the decoded header, eight fields at their own widths. -/
structure Header where
  version : BitVec 3
  packetType : BitVec 1
  secondaryHeaderFlag : BitVec 1
  apid : BitVec 11
  sequenceFlags : BitVec 2
  sequenceCount : BitVec 14
  lengthField : BitVec 16
  endianness : ByteOrder
  deriving DecidableEq, Repr

/-- R10 to R14, R25: the block's own state. -/
structure Block where
  /-- R10: every byte taken in since reset, in arrival order; offset `a` names element `a` (R30). -/
  stream : List Byte
  /-- R11: the offset of the first byte not yet consumed. -/
  cursor : Nat
  /-- R13. -/
  st : St
  /-- R14: the cached current header. -/
  hdr : Option Header
  deriving DecidableEq, Repr

/-- R57, R58: the response as a sum type; a field that is not valid does not exist. -/
inductive Response where
  /-- `OK` with no value, the answer of RECEIVE. -/
  | accepted
  /-- `OK` with a header and its byte order. -/
  | header (h : Header)
  /-- `OK` with bytes: one whole packet, or the bytes a PEEK asked for. -/
  | bytes (p : List Byte)
  /-- `OK` with a count. -/
  | count (n : Nat)
  /-- `OK` with a byte order. -/
  | order (o : ByteOrder)
  /-- `NONE`: insufficient data. -/
  | absent
  /-- `ILLEGAL`: reserved opcode. -/
  | illegal
  /-- `FULL`: finite `CAP` only (R71). -/
  | full
  deriving DecidableEq, Repr

/-- R73, D11: what an internal step tells its internal caller. -/
inductive StepResult where
  | done
  | fail
  deriving DecidableEq, Repr

/-- What the host can do to the block between two commands: issue a command (R54) or reset it (R141). -/
inductive Input where
  | command (r : Request)
  | reset
  deriving DecidableEq, Repr

/-- One entry of the port's transcript: a command with its one response (R57), or a reset event, which has no response
(R140). -/
inductive Event where
  | answered (i : Instr) (r : Response)
  | reset
  deriving DecidableEq, Repr

/-- The whole state. Only `block` is the spec's; the other fields are the model's own (assumptions 1, 2, 3, 5). -/
structure State where
  block : Block
  /-- The parameter `CAP` (R6, R71); no step writes it. -/
  cfg : Config
  /-- What the host will still do, first one first (R5, R41). -/
  inputs : List Input
  /-- What has crossed the port, oldest first; the bytes in it are the host's copies (R39). -/
  transcript : List Event
  /-- The result of the last internal step run as an instruction of its own; no host command reads or writes it. -/
  stepResult : Option StepResult
  deriving DecidableEq, Repr

/-- R21, R140: the construction state. -/
def Block.reset : Block where
  stream := []
  cursor := 0
  st := .empty
  hdr := none

/-- The machine right after reset: R21, the decided unbounded `CAP` (D4), nothing issued and nothing answered yet. -/
def State.reset : State where
  block := Block.reset
  cfg := Config.decided
  inputs := []
  transcript := []
  stepResult := none

/-- R120: "The block raises no exception", and every command has a next state: there is no fault to name. -/
inductive Fault where
  deriving DecidableEq, Repr

/-- Why the model gives an instruction no meaning. -/
inductive Refusal where
  /-- Raised by no arm: every row of the table has its meaning. Safe. -/
  | notModelled (mnemonic : String)
  deriving DecidableEq, Repr

/-- What every meaning and every step answers. -/
abbrev Result := Host.Outcome State Fault Refusal

end Sys2Proof.Machine
end

