-- ==== Sys2Proof/Machine/Flags.lean ====
section
/-! DEFINITION. The block has no flags (10_state.md R22, R23); the nearest thing is the `status` of a response, computed
by each command and stored nowhere (30_encoding.md R58). This file holds the status, its coding, and the response as the
flat record of fields that crosses the port (R57). -/

namespace Sys2Proof.Machine

/-- R58. -/
inductive Status where
  | ok
  | none
  | illegal
  | full
  deriving DecidableEq, Repr

/-- R58: the coding of `status` in two bits. -/
def Status.code : Status → BitVec 2
  | .ok => 0
  | .none => 1
  | .illegal => 2
  | .full => 3

/-- R58: the status of a response. -/
def Response.status : Response → Status
  | .accepted => .ok
  | .header _ => .ok
  | .bytes _ => .ok
  | .count _ => .ok
  | .order _ => .ok
  | .absent => .none
  | .illegal => .illegal
  | .full => .full

/-- R57: the response fields of the port. The header goes out as its seven numeric fields, already separated (R59). -/
structure PortResponse where
  status : BitVec 2
  version : BitVec 3
  packetType : BitVec 1
  secondaryHeaderFlag : BitVec 1
  apid : BitVec 11
  sequenceFlags : BitVec 2
  sequenceCount : BitVec 14
  lengthField : BitVec 16
  order : BitVec 1
  bytes : List Byte
  count : Nat
  deriving DecidableEq, Repr

/-- R57: every field that is not valid is "set to 0 or `[]`" (D3; no claim of the model rests on those zeros but the one
that states them). -/
def PortResponse.blank (s : Status) : PortResponse where
  status := s.code
  version := 0
  packetType := 0
  secondaryHeaderFlag := 0
  apid := 0
  sequenceFlags := 0
  sequenceCount := 0
  lengthField := 0
  order := 0
  bytes := []
  count := 0

/-- R57, R59: the fields of a response as they cross the port. -/
def Response.port : Response → PortResponse
  | .accepted => PortResponse.blank .ok
  | .header h =>
    { PortResponse.blank .ok with
      version := h.version, packetType := h.packetType, secondaryHeaderFlag := h.secondaryHeaderFlag, apid := h.apid,
      sequenceFlags := h.sequenceFlags, sequenceCount := h.sequenceCount, lengthField := h.lengthField,
      order := h.endianness.code }
  | .bytes p => { PortResponse.blank .ok with bytes := p }
  | .count n => { PortResponse.blank .ok with count := n }
  | .order o => { PortResponse.blank .ok with order := o.code }
  | .absent => PortResponse.blank .none
  | .illegal => PortResponse.blank .illegal
  | .full => PortResponse.blank .full

end Sys2Proof.Machine
end

