-- ==== Sys2Proof/Machine/Operands.lean ====
section
/-! DEFINITION. Operand forms: the stream as memory (20_memory.md R30, R37) with its three addressing modes
(44_cross_family_semantics.md R113), the six-byte operand of DECODE (30_encoding.md R54), and the Primary Header's bit
fields (R50 to R52, 41_header_decoder.md R80, R83). -/

namespace Sys2Proof.Machine

/-! ### The stream as memory -/

/-- R30: the byte at an absolute offset; there is none outside `0 <= a < len(stream)`. -/
def Block.readByte (b : Block) (a : Nat) : Option Byte := b.stream[a]?

/-- The stream written out as (address, byte) cells: every offset below its length, in rising order. -/
def Memory.cells (m : List Byte) : List Host.Cell := m.zipIdx.map fun p => (p.2, p.1)

/-- The one form a stream's cells have: addresses strictly rising, and each below the length (assumption 6). -/
abbrev Memory.wf (m : List Byte) : Prop :=
  (Memory.cells m).Pairwise (fun x y => x.1 < y.1) ∧ ∀ c ∈ Memory.cells m, c.1 < m.length

/-- R8 `MemRead(addr, n)`: the `n` bytes `stream[addr .. addr + n)`. Every rule tests `addr + n <= len(stream)` before
it reads. -/
def memRead (m : List Byte) (addr n : Nat) : List Byte := (m.drop addr).take n

/-- R8 `MemWrite(addr, n, v)`: "the only store is an append: it is legal only with `addr = len(stream)` and
`len(v) = n`". A store anywhere else is no operation of the block and stores nothing here. -/
def memWrite (m : List Byte) (addr n : Nat) (v : List Byte) : List Byte :=
  if addr = m.length ∧ v.length = n then m ++ v else m

/-- R8: `rem()`, the count of bytes at or after the cursor. -/
def Block.rem (b : Block) : Nat := b.stream.length - b.cursor

/-- R37, R106: the live bytes `stream[cursor .. len(stream))`. -/
def Block.live (b : Block) : List Byte := b.stream.drop b.cursor

/-- R113, mode "at the cursor". -/
def cursorAddr (b : Block) : Nat := b.cursor

/-- R113, mode "cursor plus offset": the address PEEK reads from. -/
def offsetAddr (b : Block) (off : Nat) : Nat := b.cursor + off

/-- R113, mode "append": the address INGEST stores to. -/
def appendAddr (b : Block) : Nat := b.stream.length

/-! ### The Primary Header -/

/-- R90: "`resolve() -> ByteOrder` returns the constant". The one seam for the byte order (R91). -/
def resolve : ByteOrder := byteOrder

/-- R80: `decode_hdr`, with the masks and shifts of R52. -/
def decodeHdr (b0 b1 b2 b3 b4 b5 : Byte) : Header where
  version := (b0 >>> 5).setWidth 3
  packetType := ((b0 >>> 4) &&& 1).setWidth 1
  secondaryHeaderFlag := ((b0 >>> 3) &&& 1).setWidth 1
  apid := (((b0 &&& 0x07).setWidth 16 <<< 8) ||| b1.setWidth 16).setWidth 11
  sequenceFlags := (b2 >>> 6).setWidth 2
  sequenceCount := (((b2 &&& 0x3F).setWidth 16 <<< 8) ||| b3.setWidth 16).setWidth 14
  lengthField := (b4.setWidth 16 <<< 8) ||| b5.setWidth 16
  endianness := resolve

/-- R80: the decoder's argument is a sequence of exactly six bytes; it never sees a seventh (90_conflicts.md C5). -/
def decodeHdrSeq : List Byte → Option Header
  | [b0, b1, b2, b3, b4, b5] => some (decodeHdr b0 b1 b2 b3 b4 b5)
  | _ => none

/-- R54, R80: byte `k` of the DECODE operand, `slice[47:40] = b0` down to `slice[7:0] = b5`. -/
def sliceByte (slice : BitVec 48) (k : Nat) : Byte := (slice >>> (40 - 8 * k)).setWidth 8

/-- R80: `decode_hdr(slice as six bytes)`. -/
def decodeSlice (slice : BitVec 48) : Header :=
  decodeHdr (sliceByte slice 0) (sliceByte slice 1) (sliceByte slice 2) (sliceByte slice 3) (sliceByte slice 4)
    (sliceByte slice 5)

/-- R51: the value `H = b0 ‖ b1 ‖ b2 ‖ b3 ‖ b4 ‖ b5`, byte 0 in the high bits. -/
def headerWord (b0 b1 b2 b3 b4 b5 : Byte) : BitVec 48 :=
  (b0.setWidth 48 <<< 40) ||| (b1.setWidth 48 <<< 32) ||| (b2.setWidth 48 <<< 24) ||| (b3.setWidth 48 <<< 16) |||
    (b4.setWidth 48 <<< 8) ||| b5.setWidth 48

/-- R83: the Control word of `encode_hdr`. -/
def controlWord (h : Header) : BitVec 16 :=
  (h.version.setWidth 16 <<< 13) ||| (h.packetType.setWidth 16 <<< 12) |||
    (h.secondaryHeaderFlag.setWidth 16 <<< 11) ||| h.apid.setWidth 16

/-- R83: the Sequence word of `encode_hdr`. -/
def sequenceWord (h : Header) : BitVec 16 := (h.sequenceFlags.setWidth 16 <<< 14) ||| h.sequenceCount.setWidth 16

/-- R83: `encode_hdr`, a function of the spec for tests and claims and no operation of the block (N27). It reads the
seven numeric fields only. -/
def encodeHdr (h : Header) : List Byte :=
  [(controlWord h >>> 8).setWidth 8, (controlWord h).setWidth 8,
   (sequenceWord h >>> 8).setWidth 8, (sequenceWord h).setWidth 8,
   (h.lengthField >>> 8).setWidth 8, h.lengthField.setWidth 8]

/-- R96: `total_len(h) = 6 + h.length_field + 1`, on natural numbers, so that nothing wraps (R38, R111). -/
def totalLen (h : Header) : Nat := hdrLen + h.lengthField.toNat + 1

/-- R38: the length of the data field, `length_field + 1` bytes. -/
def dataLen (h : Header) : Nat := h.lengthField.toNat + 1

/-- R14: what the source calls the two values of `packet_type`. -/
inductive PacketKind where
  | telemetry
  | telecommand
  deriving DecidableEq, Repr

/-- R14: "0 = telemetry, 1 = telecommand". The block itself outputs the number (R59). -/
def Header.packetKind (h : Header) : PacketKind := if h.packetType = 0 then .telemetry else .telecommand

end Sys2Proof.Machine
end

