-- ==== Sys2Proof/Machine/Ops.lean ====
section
/-! DEFINITION. The named operations the meanings share, over the block (R70, R73, R74, R97 to R101) and over the port
(R57, R71, R140). The block raises no exception (60_exceptions.md R120), so there is no entry to take and none to return
from: what stands in its place is the answer of every command, `State.respond` (R126). -/

namespace Sys2Proof.Machine

/-! ### The Byte Ingestion Buffer -/

/-- R70: append a chunk; nothing else changes. It tests no capacity: that is RECEIVE's test (R71, `hasRoom`), and without
it the append is the model's choice (assumption 13). -/
def ingest (bytes : List Byte) (b : Block) : Block :=
  { b with stream := memWrite b.stream (appendAddr b) bytes.length bytes }

/-- R73: move the cursor, or fail with no change when `n > rem()` (D11). -/
def advance (n : Nat) (b : Block) : StepResult × Block :=
  if b.rem < n then (.fail, b) else (.done, { b with cursor := b.cursor + n })

/-- R74: the answer of PEEK (D12). -/
def peekBytes (off len : Nat) (b : Block) : Response :=
  if b.rem < off + len then .absent else .bytes (memRead b.stream (offsetAddr b off) len)

/-- R71: whether the store has room for a chunk. The bound is on live bytes; unbounded `CAP` always has room. -/
def hasRoom (cfg : Config) (b : Block) (n : Nat) : Bool :=
  match cfg.cap with
  | none => true
  | some c => decide (b.rem + n ≤ c)

/-! ### The Packet Extractor -/

/-- R97: the header decoded from exactly the six bytes at the cursor, if `rem() >= 6`. -/
def decodeAtCursor (b : Block) : Option Header :=
  if hdrLen ≤ b.rem then decodeHdrSeq (memRead b.stream (cursorAddr b) hdrLen) else none

/-- R97: what a successful `try_decode` writes, `hdr` and `st` in one step. -/
def cacheHeader (h : Header) (b : Block) : Block := { b with hdr := some h, st := .headerReady }

/-- R97: `try_decode`: the new state, or none where it returns false and changes nothing. -/
def tryDecode (b : Block) : Option Block := (decodeAtCursor b).map fun h => cacheHeader h b

/-- R99, R101: "requires state `HeaderReady` (if not, first attempt the `current_header()` transition)": the cached
header with the state that holds it, or none where there are too few bytes. `HeaderReady` with no cached header, which
R17 excludes, is treated as no header decoded (assumption 7). -/
def ensureHeader (b : Block) : Option (Header × Block) :=
  match b.st, b.hdr with
  | .headerReady, some h => some (h, b)
  | _, _ => (decodeAtCursor b).map fun h => (h, cacheHeader h b)

/-- R98 on the block: append, and in `Exhausted` re-attempt the decode. -/
def receiveChunk (chunk : List Byte) (b : Block) : Block :=
  let b1 := ingest chunk b
  match b1.st with
  | .exhausted => (tryDecode b1).getD b1
  | .empty => b1
  | .headerReady => b1

/-- R99 on the block. -/
def currentHeader (b : Block) : Response × Block :=
  match ensureHeader b with
  | some (h, b1) => (.header h, b1)
  | none => (.absent, b)

/-- R101 on the block: first the header, then the length (R125). -/
def pullPacket (b : Block) : Response × Block :=
  match ensureHeader b with
  | none => (.absent, { b with st := .exhausted })
  | some (h, b1) =>
    if b1.rem < totalLen h then (.absent, b1)
    else
      (.bytes (memRead b1.stream (cursorAddr b1) (totalLen h)),
       { (advance (totalLen h) b1).2 with hdr := none, st := .empty })

/-! ### The command port and the reset event -/

/-- R57: give the one response of a command. -/
def State.respond (i : Instr) (r : Response) (s : State) : State :=
  { s with transcript := s.transcript ++ [.answered i r] }

/-- The state with another block. -/
def State.withBlock (b : Block) (s : State) : State := { s with block := b }

/-- The state with the result of an internal step (R73). -/
def State.withStepResult (r : StepResult) (s : State) : State := { s with stepResult := some r }

/-- R140, R141: the reset event: the construction state and no response. What the host already holds and what it will
still do are not the block's (R141). -/
def resetEvent (s : State) : State := { s with block := Block.reset, transcript := s.transcript ++ [.reset] }

/-- R5, R41: what the host does next, with the state that has it taken from the list. -/
def takeInput (s : State) : Option (Input × State) :=
  match s.inputs with
  | [] => none
  | x :: rest => some (x, { s with inputs := rest })

/-- The request of a table word placed where the next step takes its command from. -/
def issueTableWord (nbits w : Nat) (s : State) : State :=
  match tableRequest nbits w with
  | .ok r => { s with inputs := .command r :: s.inputs }
  | .error _ => s

end Sys2Proof.Machine
end

