-- ==== Sys2Proof/Machine/Buffer.lean ====
section
/-! DEFINITION. The Byte Ingestion Buffer (40_byte_ingestion_buffer.md): REMAINING, PEEK, and the internal steps INGEST
and ADVANCE, which `receiveChunk` and `pullPacket` use and which have meanings of their own as instructions. -/

namespace Sys2Proof.Machine

/-- R72: REMAINING. -/
def execRemaining (s : State) : Result := .next (s.respond .remaining (.count s.block.rem))

/-- R74: PEEK. -/
def execPeek (off len : Nat) (s : State) : Result := .next (s.respond (.peek off len) (peekBytes off len s.block))

/-- R70: INGEST on its own. It has no response; it is done (assumption 5). DESIGN CHOICE: so with a finite `CAP` too, even
where the live bytes then pass it: R70 says it cannot fail with the unbounded `CAP`, and R71 gives a refusal for RECEIVE
only (assumption 13). -/
def execIngest (bytes : List Byte) (s : State) : Result :=
  .next ((s.withBlock (ingest bytes s.block)).withStepResult .done)

/-- R73: ADVANCE on its own. It has no response; its result goes to the internal caller. -/
def execAdvance (n : Nat) (s : State) : Result :=
  .next ((s.withBlock (advance n s.block).2).withStepResult (advance n s.block).1)

end Sys2Proof.Machine
end

