-- ==== Sys2Proof/Machine/Extractor.lean ====
section
/-! DEFINITION. The Packet Extractor (43_packet_extractor.md): RECEIVE, CURRENT_HEADER, PULL_PACKET. -/

namespace Sys2Proof.Machine

/-- R98: RECEIVE. With a finite `CAP` the capacity is tested before anything is appended (R71, R125). -/
def execReceive (chunk : List Byte) (s : State) : Result :=
  if hasRoom s.cfg s.block chunk.length then
    .next ((s.withBlock (receiveChunk chunk s.block)).respond (.receive chunk) .accepted)
  else .next (s.respond (.receive chunk) .full)

/-- R99: CURRENT_HEADER. -/
def execCurrentHeader (s : State) : Result :=
  .next ((s.withBlock (currentHeader s.block).2).respond .currentHeader (currentHeader s.block).1)

/-- R101: PULL_PACKET. -/
def execPullPacket (s : State) : Result :=
  .next ((s.withBlock (pullPacket s.block).2).respond .pullPacket (pullPacket s.block).1)

end Sys2Proof.Machine
end

