-- ==== Sys2Proof/Machine/HeaderDecoder.lean ====
section
/-! DEFINITION. The Header Decoder (41_header_decoder.md): DECODE. -/

namespace Sys2Proof.Machine

/-- R80: DECODE. The header it returns is not cached. -/
def execDecode (slice : BitVec 48) (s : State) : Result := .next (s.respond (.decode slice) (.header (decodeSlice slice)))

end Sys2Proof.Machine
end

