-- ==== Sys2Proof/Machine/Reserved.lean ====
section
/-! DEFINITION. The reserved opcode (30_encoding.md R60). -/

namespace Sys2Proof.Machine

/-- R60: "The block does nothing: no state changes, and the response is `status = ILLEGAL`". -/
def execReserved7 (s : State) : Result := .next (s.respond .reserved7 .illegal)

end Sys2Proof.Machine
end

