-- ==== Sys2Proof/Machine/Resolver.lean ====
section
/-! DEFINITION. The Endianness Resolver (42_endianness_resolver.md): RESOLVE. -/

namespace Sys2Proof.Machine

/-- R90: RESOLVE. -/
def execResolve (s : State) : Result := .next (s.respond .resolve (.order resolve))

end Sys2Proof.Machine
end

