-- ==== Sys2Proof/Machine/Dispatch.lean ====
section
/-! DEFINITION. One arm per constructor of `Instr`, each one call of its meaning. -/

namespace Sys2Proof.Machine

def exec (i : Instr) (s : State) : Host.Outcome State Fault Refusal :=
  match i with
  | .receive chunk => Sys2Proof.Machine.execReceive chunk s
  | .currentHeader => Sys2Proof.Machine.execCurrentHeader s
  | .pullPacket => Sys2Proof.Machine.execPullPacket s
  | .remaining => Sys2Proof.Machine.execRemaining s
  | .peek off len => Sys2Proof.Machine.execPeek off len s
  | .decode slice => Sys2Proof.Machine.execDecode slice s
  | .resolve => Sys2Proof.Machine.execResolve s
  | .reserved7 => Sys2Proof.Machine.execReserved7 s
  | .ingest bytes => Sys2Proof.Machine.execIngest bytes s
  | .advance n => Sys2Proof.Machine.execAdvance n s

end Sys2Proof.Machine
end

