-- ==== Sys2Proof/Machine/Step.lean ====
section
/-! DEFINITION. One step of the machine: the host's next input, taken whole (00_scope.md R5, 20_memory.md R41). -/

namespace Sys2Proof.Machine

/-- One step: the next command of the host is decoded and executed, or the reset event happens. A host that issues
nothing leaves the block as it is (60_exceptions.md R130 H6, 44_cross_family_semantics.md R114). -/
def step (s : State) : Host.Outcome State Fault Refusal :=
  match takeInput s with
  | none => .next s
  | some (.reset, s1) => .next (resetEvent s1)
  | some (.command r, s1) => exec (decodeRequest r) s1

/-- The state in which the host's very next command is the one whose table word is `w` (assumption 2). -/
def State.withFetchWord (s : State) (nbits w : Nat) : State := issueTableWord nbits w s

end Sys2Proof.Machine
end

