-- ==== Sys2Proof/Machine/HostLoops.lean ====
section
/-! DEFINITION. The host's side of the port: its loops as lists of commands (30_encoding.md R65), the framing function
and the drain loop (43_packet_extractor.md R107), and what a transcript says was fed and handed out (R107,
70_reset_and_hazards.md R152). Nothing here is part of the block. -/

namespace Sys2Proof.Machine

/-! ### Pseudo-commands -/

/-- R65: one RECEIVE whose chunk is all of `s`. -/
def feedAll (s : List Byte) : List Instr := [.receive s]

/-- R65: one RECEIVE for each byte, in order. -/
def feedBytewise (s : List Byte) : List Instr := s.map fun x => .receive [x]

/-- R65: look at the header; the host's decision to pull is `go`. -/
def inspectThenPull (go : Bool) : List Instr := if go then [.currentHeader, .pullPacket] else [.currentHeader]

/-- The commands of a list issued one after another, stopping where one does not answer a next state. -/
def execAll : List Instr → State → Result
  | [], s => .next s
  | i :: rest, s =>
    match exec i s with
    | .next t => execAll rest t
    | .fault r => .fault r
    | .refused r => .refused r

/-- R65 `DRAIN` on the block, with at most `fuel` pulls: "repeat `PULL_PACKET` until a response is `NONE`; collect the
packets". -/
def drain : Nat → Block → List (List Byte) × Block
  | 0, b => ([], b)
  | fuel + 1, b =>
    match pullPacket b with
    | (.bytes p, b1) => (p :: (drain fuel b1).1, (drain fuel b1).2)
    | (_, b1) => ([], b1)

/-! ### Framing -/

/-- R107: the first packet of a byte sequence, if a whole one is there, with the bytes after it. -/
def frameOne (bytes : List Byte) : Option (List Byte × List Byte) :=
  match decodeHdrSeq (bytes.take hdrLen) with
  | none => none
  | some h => if bytes.length < totalLen h then none else some (bytes.take (totalLen h), bytes.drop (totalLen h))

/-- R107 with a bound on the number of packets, so that the recursion is structural. -/
def frameUpTo : Nat → List Byte → List (List Byte) × List Byte
  | 0, bytes => ([], bytes)
  | fuel + 1, bytes =>
    match frameOne bytes with
    | none => ([], bytes)
    | some (p, rest) => (p :: (frameUpTo fuel rest).1, (frameUpTo fuel rest).2)

/-- R107: `frame(L)`. Every packet has at least 7 bytes, so the length of `L` bounds their number. -/
def frame (bytes : List Byte) : List (List Byte) × List Byte := frameUpTo bytes.length bytes

/-! ### What a transcript says -/

/-- The bytes taken in since the last reset, in order: the chunks of the RECEIVEs that were accepted. -/
def fedBytes (acc : List Byte) : List Event → List Byte
  | [] => acc
  | .answered (.receive c) .accepted :: rest => fedBytes (acc ++ c) rest
  | .reset :: rest => fedBytes [] rest
  | _ :: rest => fedBytes acc rest

/-- The packets handed out since the last reset, in order: the bytes PULL_PACKET answered. -/
def handedPackets (acc : List (List Byte)) : List Event → List (List Byte)
  | [] => acc
  | .answered .pullPacket (.bytes p) :: rest => handedPackets (acc ++ [p]) rest
  | .reset :: rest => handedPackets [] rest
  | _ :: rest => handedPackets acc rest

/-- The chunks a list of commands feeds, in order. -/
def chunksOf : List Instr → List Byte
  | [] => []
  | .receive c :: rest => c ++ chunksOf rest
  | _ :: rest => chunksOf rest

end Sys2Proof.Machine
end

