-- ==== Sys2Proof/Safety.lean ====
section
/-! DEFINITION. What counts as a safe run, in the terms the claims use: the invariants of 10_state.md R16 to R19, the
reachable states, what the port has carried (R107), and the states a finite store can wedge in
(70_reset_and_hazards.md R151). -/

namespace Sys2Proof.Machine

/-- R16 to R19. -/
structure Block.Inv (b : Block) : Prop where
  /-- R16: "cursor ≤ length of accumulated bytes at all times". -/
  cursor_le : b.cursor ≤ b.stream.length
  /-- R17: "`st = HeaderReady` exactly when `hdr` is present". -/
  ready_iff : b.st = .headerReady ↔ b.hdr.isSome
  /-- R18: the cached header is a fresh decode of the six bytes at the cursor. -/
  ready_cache : b.st = .headerReady → hdrLen ≤ b.rem ∧ b.hdr = decodeHdrSeq (memRead b.stream b.cursor hdrLen)
  /-- R19: `Exhausted` means fewer than six live bytes. -/
  exhausted_few : b.st = .exhausted → b.rem < hdrLen

/-- R71: with a finite `CAP` the live bytes never pass it. -/
def State.WithinCap (s : State) : Prop := ∀ c, s.cfg.cap = some c → s.block.rem ≤ c

/-- R107: the transcript accounts for the block: the stream is what was fed, and its consumed part is what was handed
out, packet by packet. -/
structure State.Accounted (s : State) : Prop where
  fed : s.block.stream = fedBytes [] s.transcript
  handed : s.block.stream.take s.block.cursor = (handedPackets [] s.transcript).flatten

/-- The machine after reset, built with a capacity of the builder's choice, and with a host that will do `inputs`. -/
def State.start (cfg : Config) (inputs : List Input) : State := { State.reset with cfg := cfg, inputs := inputs }

/-- The states some run from a start can reach. -/
inductive Reachable : State → Prop where
  | start (cfg : Config) (inputs : List Input) : Reachable (State.start cfg inputs)
  | step (s t : State) : Reachable s → step s = .next t → Reachable t

/-- What the host will do next is not the reset event. -/
def State.NoResetNext (s : State) : Prop := s.inputs.head? ≠ some .reset

/-- R151: the header at the cursor needs more bytes than the store can hold. -/
structure State.Wedged (s : State) : Prop where
  inv : s.block.Inv
  within : s.WithinCap
  header : ∃ h, s.block.hdr = some h ∧ ∃ c, s.cfg.cap = some c ∧ c < totalLen h

/-- The bytes start with the six bytes of a Primary Header that decodes to `h` (R80, R97). -/
def StartsWithHeader (bytes : List Byte) (h : Header) : Prop :=
  ∃ b0 b1 b2 b3 b4 b5 rest, bytes = b0 :: b1 :: b2 :: b3 :: b4 :: b5 :: rest ∧ h = decodeHdr b0 b1 b2 b3 b4 b5

/-- R103: the column `st` after, of the table. `r` is `rem()` before the command, but after the append for RECEIVE; `T`
is the total length of the packet at the cursor, which is looked at only where `6 <= r`. -/
def tableSt (st : St) (i : Instr) (r T : Nat) : St :=
  match i with
  | .receive _ => if st = .exhausted ∧ 6 ≤ r then .headerReady else st
  | .currentHeader => if st = .headerReady ∨ 6 ≤ r then .headerReady else st
  | .pullPacket =>
    if st ≠ .headerReady ∧ r < 6 then .exhausted else if r < T then .headerReady else .empty
  | .remaining => st
  | .peek _ _ => st
  | .decode _ => st
  | .resolve => st
  | .reserved7 => st
  | .ingest _ => st
  | .advance _ => st

/-- R103: the column `cursor` after, of the table, as what is added. -/
def tableMove (i : Instr) (r T : Nat) : Nat :=
  match i with
  | .pullPacket => if 6 ≤ r ∧ T ≤ r then T else 0
  | .receive _ => 0
  | .currentHeader => 0
  | .remaining => 0
  | .peek _ _ => 0
  | .decode _ => 0
  | .resolve => 0
  | .reserved7 => 0
  | .ingest _ => 0
  | .advance _ => 0

/-- An instruction as an input of the host. -/
def commandOf (i : Instr) : List Input := (encode i).toList.map .command

/-- A list of instructions as inputs of the host. -/
def commandsOf (is : List Instr) : List Input := is.flatMap commandOf

end Sys2Proof.Machine
end

