-- ==== Sys2Proof/Certificates/Slice0/Obligations.lean ====
section
/-! DEFINITION. The statements for the provers, file by file of the spec. A response is an entry at the end of the
transcript (assumption 3), so `respond(...)` of a rule reads `transcript := s.transcript ++ [.answered i r]` here, and a
conclusion `exec i s = .next { s with ... }` names everything that changes: every field it does not name is as before. -/

open Sys2Proof Sys2Proof.Machine

/-! ### 10_state.md and 70_reset_and_hazards.md: reset -/

/-- R21: after reset the stream is empty, the cursor 0, the state `Empty`, no header cached, the byte order `BIG`. -/
def Obligations.ResetLeavesConstructionState : Prop :=
  State.reset.block.stream = [] ∧ State.reset.block.cursor = 0 ∧ State.reset.block.st = .empty ∧
    State.reset.block.hdr = none ∧ resolve = .big

/-- R140, R141: the reset event puts the construction state back from any state and has no response. That it leaves the
parameter, the host's further inputs and what was already answered alone, and is itself written into the transcript, is
the model's choice (assumptions 2 and 3). -/
def Obligations.ResetEventRestoresConstructionState : Prop :=
  ∀ (s : State) (rest : List Input), s.inputs = .reset :: rest →
    step s = .next { s with
      block := { stream := [], cursor := 0, st := .empty, hdr := none },
      inputs := rest, transcript := s.transcript ++ [.reset] }

/-- R142: straight after reset every command is legal and has the answer the rule lists. -/
def Obligations.AnswersStraightAfterReset : Prop :=
  exec .remaining State.reset = .next { State.reset with transcript := [.answered .remaining (.count 0)] } ∧
  exec .currentHeader State.reset = .next { State.reset with transcript := [.answered .currentHeader .absent] } ∧
  exec .pullPacket State.reset = .next { State.reset with
    block := { State.reset.block with st := .exhausted }, transcript := [.answered .pullPacket .absent] } ∧
  exec (.peek 0 0) State.reset = .next { State.reset with transcript := [.answered (.peek 0 0) (.bytes [])] } ∧
  exec (.peek 0 1) State.reset = .next { State.reset with transcript := [.answered (.peek 0 1) .absent] } ∧
  exec .resolve State.reset = .next { State.reset with transcript := [.answered .resolve (.order .big)] } ∧
  ∀ slice, exec (.decode slice) State.reset = .next { State.reset with
    transcript := [.answered (.decode slice) (.header (decodeSlice slice))] }

/-! ### 10_state.md: invariants -/

/-- R16 to R19 hold after reset, whatever capacity the block is built with. -/
def Obligations.InvariantsHoldAtReset : Prop :=
  State.reset.block.Inv ∧ ∀ (cfg : Config) (inputs : List Input),
    (State.start cfg inputs).block.Inv ∧ (State.start cfg inputs).WithinCap

/-- R109: every step, the reset event among them, keeps R16 to R19. -/
def Obligations.EveryStepKeepsInvariants : Prop :=
  ∀ s t : State, s.block.Inv → step s = .next t → t.block.Inv

/-- R109: "so they hold in every reachable state". -/
def Obligations.ReachableStatesKeepInvariants : Prop := ∀ s : State, Reachable s → s.block.Inv ∧ s.WithinCap

/-- R71: with a finite `CAP` no step lets the live bytes pass it. -/
def Obligations.EveryStepStaysWithinCapacity : Prop :=
  ∀ s t : State, s.WithinCap → step s = .next t → t.WithinCap

/-- R20: without a reset the cursor and the length never decrease and the old stream is a prefix of the new one; this
for every instruction, the internal steps among them. -/
def Obligations.StreamAndCursorOnlyGrow : Prop :=
  (∀ s t : State, s.NoResetNext → step s = .next t →
    s.block.stream <+: t.block.stream ∧ s.block.stream.length ≤ t.block.stream.length ∧
      s.block.cursor ≤ t.block.cursor) ∧
  ∀ (i : Instr) (s t : State), exec i s = .next t →
    s.block.stream <+: t.block.stream ∧ s.block.stream.length ≤ t.block.stream.length ∧
      s.block.cursor ≤ t.block.cursor

/-- R25, R95: only RECEIVE (and INGEST inside it) writes the stream, only PULL_PACKET (and ADVANCE inside it) the cursor,
only the three extractor commands the state and the cached header. -/
def Obligations.OnlyOwnersWriteState : Prop :=
  ∀ (i : Instr) (s t : State), exec i s = .next t →
    (t.block.stream ≠ s.block.stream → (∃ c, i = .receive c) ∨ ∃ v, i = .ingest v) ∧
    (t.block.cursor ≠ s.block.cursor → i = .pullPacket ∨ ∃ n, i = .advance n) ∧
    (t.block.st ≠ s.block.st ∨ t.block.hdr ≠ s.block.hdr →
      (∃ c, i = .receive c) ∨ i = .currentHeader ∨ i = .pullPacket)

/-! ### 20_memory.md -/

/-- R30, R35, R36: what each command does to every byte of memory. The commands that read, the two that move over the
stream among them, leave every byte as it was. INGEST, and a RECEIVE there is room for, store exactly their bytes at the
append address; every other address reads as before. A refused RECEIVE stores nothing. That INGEST
on its own stores them with a finite `CAP` even past it is the model's choice (assumption 13). -/
def Obligations.EveryByteOutsideTheAppendUnchanged : Prop :=
  (∀ (i : Instr) (s t : State), exec i s = .next t → (∀ c, i ≠ .receive c) → (∀ v, i ≠ .ingest v) →
    ∀ a, t.block.readByte a = s.block.readByte a) ∧
  (∀ (v : List Byte) (s t : State), exec (.ingest v) s = .next t →
    (∀ a, (a < appendAddr s.block ∨ appendAddr s.block + v.length ≤ a) → t.block.readByte a = s.block.readByte a) ∧
    ∀ k, k < v.length → t.block.readByte (appendAddr s.block + k) = v[k]?) ∧
  (∀ (c : List Byte) (s t : State), exec (.receive c) s = .next t →
    (∀ a, (a < appendAddr s.block ∨ appendAddr s.block + c.length ≤ a) → t.block.readByte a = s.block.readByte a) ∧
    (hasRoom s.cfg s.block c.length = true →
      ∀ k, k < c.length → t.block.readByte (appendAddr s.block + k) = (c)[k]?) ∧
    (hasRoom s.cfg s.block c.length = false → ∀ a, t.block.readByte a = s.block.readByte a))

/-- R38: the total length `6 + L + 1` is at least 7 (`L = 0`) and at most 65542 (`L = 65535`), without wrap-around, and
is the header's six bytes and the data field's `L + 1`, at least 1 and at most 65536. -/
def Obligations.PacketLengthBounds : Prop :=
  (∀ h : Header, totalLen h = h.lengthField.toNat + 7 ∧ 7 ≤ totalLen h ∧ totalLen h ≤ 65542 ∧
    totalLen h = 6 + dataLen h ∧ 1 ≤ dataLen h ∧ dataLen h ≤ 65536) ∧
  (∀ h : Header, h.lengthField = 0 → totalLen h = 7) ∧ ∀ h : Header, h.lengthField = 65535 → totalLen h = 65542

/-- R39, R150: what the host was given stays as it was: no step changes an entry of the transcript. -/
def Obligations.AnswersGivenNeverChange : Prop :=
  ∀ s t : State, step s = .next t → s.transcript <+: t.transcript

/-! ### 30_encoding.md -/

/-- R56: the opcode map, with the operands each format carries (R55) and the other fields ignored (R54); no request
selects an internal step, and the four commands beside the three of the external interface are read-only. -/
def Obligations.OpcodeSelectsOperation : Prop :=
  (∀ (chunk : List Byte) (slice : BitVec 48) (off len : Nat),
    decodeRequest ⟨0b000, chunk, slice, off, len⟩ = .receive chunk ∧
    decodeRequest ⟨0b001, chunk, slice, off, len⟩ = .currentHeader ∧
    decodeRequest ⟨0b010, chunk, slice, off, len⟩ = .pullPacket ∧
    decodeRequest ⟨0b011, chunk, slice, off, len⟩ = .remaining ∧
    decodeRequest ⟨0b100, chunk, slice, off, len⟩ = .peek off len ∧
    decodeRequest ⟨0b101, chunk, slice, off, len⟩ = .decode slice ∧
    decodeRequest ⟨0b110, chunk, slice, off, len⟩ = .resolve ∧
    decodeRequest ⟨0b111, chunk, slice, off, len⟩ = .reserved7) ∧
  (∀ r : Request, (∀ v, decodeRequest r ≠ .ingest v) ∧ ∀ n, decodeRequest r ≠ .advance n) ∧
  ∀ (s t : State) (off len : Nat) (slice : BitVec 48),
    (exec .remaining s = .next t ∨ exec (.peek off len) s = .next t ∨ exec (.decode slice) s = .next t ∨
      exec .resolve s = .next t) → t.block = s.block

/-- Encoder and decoder agree: every well-formed instruction has a request, and its request decodes to it with every
operand; the request of what a request decodes to is that request with the ignored fields at zero. -/
def Obligations.PortCodecRoundTrip : Prop :=
  (∀ i : Instr, i.WellFormed → ∃ r, encode i = some r ∧ decodeRequest r = i) ∧
  (∀ i : Instr, ¬ i.WellFormed → encode i = none) ∧
  ∀ r : Request, encode (decodeRequest r) = some r.canonical

/-- A step runs the decoded command: what the host issues next is taken from its list and executed, and nothing else
happens (R5, R41). A host that issues nothing leaves everything as it is (R130 H6). That what the host issues stands in a
list, the next one first, is the model's choice (assumption 2). -/
def Obligations.StepRunsTheDecodedCommand : Prop :=
  (∀ (s : State) (r : Request) (rest : List Input), s.inputs = .command r :: rest →
    step s = exec (decodeRequest r) { s with inputs := rest }) ∧
  ∀ s : State, s.inputs = [] → step s = .next s

/-- A table word placed where the step takes its next command from runs exactly the instruction the decoder reads from
it, on the state as it was. The words of the eight rows with an opcode are the eight values of `op`. No rule says how a
table word is read or where it is placed: that it is `op` = bits 2..0 with every operand zero or empty and the higher bits
ignored (assumption 4), and that `withFetchWord` puts its request at the head of the host's list (assumption 2), are the
model's DESIGN CHOICE; of the spec is only which operation each value of `op` selects (R56). -/
def Obligations.TableWordRunsAsNextCommand : Prop :=
  (∀ (s : State) (nbits w : Nat) (i : Instr), decodeTableWord nbits w = some i →
    step (s.withFetchWord nbits w) = exec i s) ∧
  (List.range 8).map (decodeTableWord 8) =
    [some (.receive []), some .currentHeader, some .pullPacket, some .remaining, some (.peek 0 0), some (.decode 0),
      some .resolve, some .reserved7]

/-- R57, R58: the response as the fields of the port, the status in its coding, every field that is not valid at zero or
empty. -/
def Obligations.ResponseFieldsAtThePort : Prop :=
  Response.accepted.port = ⟨0, 0, 0, 0, 0, 0, 0, 0, 0, [], 0⟩ ∧
  (∀ h : Header, (Response.header h).port =
    ⟨0, h.version, h.packetType, h.secondaryHeaderFlag, h.apid, h.sequenceFlags, h.sequenceCount, h.lengthField,
      h.endianness.code, [], 0⟩) ∧
  (∀ p : List Byte, (Response.bytes p).port = ⟨0, 0, 0, 0, 0, 0, 0, 0, 0, p, 0⟩) ∧
  (∀ n : Nat, (Response.count n).port = ⟨0, 0, 0, 0, 0, 0, 0, 0, 0, [], n⟩) ∧
  (∀ o : ByteOrder, (Response.order o).port = ⟨0, 0, 0, 0, 0, 0, 0, 0, o.code, [], 0⟩) ∧
  Response.absent.port = ⟨1, 0, 0, 0, 0, 0, 0, 0, 0, [], 0⟩ ∧
  Response.illegal.port = ⟨2, 0, 0, 0, 0, 0, 0, 0, 0, [], 0⟩ ∧
  Response.full.port = ⟨3, 0, 0, 0, 0, 0, 0, 0, 0, [], 0⟩

/-- R57, R120: every command from every state has exactly one next state and one response; it leaves the parameter, the
host's inputs and the internal result alone. -/
def Obligations.OneResponsePerCommand : Prop :=
  ∀ (i : Instr) (s : State), i.WellFormed → ∃ b r,
    exec i s = .next { s with block := b, transcript := s.transcript ++ [.answered i r] }

/-- R120: the step function is total: there is no fault and no refusal, from any state. -/
def Obligations.StepAlwaysHasNextState : Prop :=
  (∀ s : State, ∃ t, step s = .next t) ∧ ∀ (i : Instr) (s : State), ∃ t, exec i s = .next t

/-- R58: which command answers which status, in states that keep the invariants. -/
def Obligations.StatusConditions : Prop :=
  ∀ (i : Instr) (s t : State) (r : Response), s.block.Inv →
    exec i s = .next t → t.transcript = s.transcript ++ [.answered i r] →
    (∀ c, i = .receive c →
      ((∀ k, s.cfg.cap = some k → s.block.rem + c.length ≤ k) → r.status = .ok) ∧
      (∀ k, s.cfg.cap = some k → k < s.block.rem + c.length → r.status = .full)) ∧
    (i = .currentHeader → (6 ≤ s.block.rem → r.status = .ok) ∧ (s.block.rem < 6 → r.status = .none)) ∧
    (i = .pullPacket →
      (∀ h, StartsWithHeader s.block.live h → totalLen h ≤ s.block.rem → r.status = .ok) ∧
      (∀ h, StartsWithHeader s.block.live h → s.block.rem < totalLen h → r.status = .none) ∧
      (s.block.rem < 6 → r.status = .none)) ∧
    (i = .remaining → r.status = .ok) ∧
    (∀ off len, i = .peek off len →
      (off + len ≤ s.block.rem → r.status = .ok) ∧ (s.block.rem < off + len → r.status = .none)) ∧
    (∀ slice, i = .decode slice → r.status = .ok) ∧
    (i = .resolve → r.status = .ok) ∧
    (i = .reserved7 → r.status = .illegal)

/-- R60: the reserved opcode does nothing but answer `ILLEGAL`, with every other field 0 or empty. -/
def Obligations.ReservedOpcodeDoesNothing : Prop :=
  (∀ s : State, exec .reserved7 s = .next { s with transcript := s.transcript ++ [.answered .reserved7 .illegal] }) ∧
  Response.illegal.port = { PortResponse.blank .ok with status := 2 } ∧
  ∀ (chunk : List Byte) (slice : BitVec 48) (off len : Nat), decodeRequest ⟨7, chunk, slice, off, len⟩ = .reserved7

/-! ### 40_byte_ingestion_buffer.md -/

/-- R70: INGEST appends its bytes and changes nothing else of the block, so `rem()` grows by exactly their number. That
the result `done` is kept in `stepResult` is the model's choice (assumption 5), and so is that it appends with a finite
`CAP` even past it (assumption 13). -/
def Obligations.IngestAppends : Prop :=
  ∀ (v : List Byte) (s : State),
    exec (.ingest v) s = .next { s with
      block := { s.block with stream := s.block.stream ++ v }, stepResult := some .done } ∧
    (s.block.cursor ≤ s.block.stream.length →
      (s.block.stream ++ v).length - s.block.cursor = s.block.rem + v.length)

/-- R71: with the decided unbounded `CAP` a RECEIVE is always accepted; with a finite one it is refused whole when
`rem() + len(chunk) > CAP`, changing no state and answering `FULL`; otherwise it leaves the block as with unbounded
`CAP`. -/
def Obligations.ReceiveRespectsCapacity : Prop :=
  ∀ (c : List Byte) (s : State),
    (∃ b, exec (.receive c) { s with cfg := ⟨none⟩ } = .next { s with
        cfg := ⟨none⟩, block := b, transcript := s.transcript ++ [.answered (.receive c) .accepted] } ∧
      ∀ k, s.block.rem + c.length ≤ k → exec (.receive c) { s with cfg := ⟨some k⟩ } = .next { s with
        cfg := ⟨some k⟩, block := b, transcript := s.transcript ++ [.answered (.receive c) .accepted] }) ∧
    ∀ k, k < s.block.rem + c.length → exec (.receive c) { s with cfg := ⟨some k⟩ } = .next { s with
      cfg := ⟨some k⟩, transcript := s.transcript ++ [.answered (.receive c) .full] }

/-- R72: REMAINING answers `len(stream) - cursor` and writes nothing. -/
def Obligations.RemainingCountsLiveBytes : Prop :=
  ∀ s : State, exec .remaining s = .next { s with
    transcript := s.transcript ++ [.answered .remaining (.count (s.block.stream.length - s.block.cursor))] }

/-- R73: ADVANCE moves the cursor forward by `n`, or fails with no change when `n > rem()`. That the result is kept in
`stepResult` is the model's choice (assumption 5). -/
def Obligations.AdvanceMovesOrFails : Prop :=
  ∀ (n : Nat) (s : State),
    (n ≤ s.block.stream.length - s.block.cursor →
      exec (.advance n) s = .next { s with
        block := { s.block with cursor := s.block.cursor + n }, stepResult := some .done }) ∧
    (s.block.stream.length - s.block.cursor < n →
      exec (.advance n) s = .next { s with stepResult := some .fail })

/-- R74: PEEK answers the `len` bytes that start `off` bytes after the cursor when they are all there, else `NONE`; it
writes nothing. -/
def Obligations.PeekReadsWithoutConsuming : Prop :=
  ∀ (off len : Nat) (s : State),
    (off + len ≤ s.block.rem → ∃ p,
      p.length = len ∧ (∀ k, k < len → p[k]? = s.block.readByte (s.block.cursor + off + k)) ∧
      exec (.peek off len) s = .next { s with
        transcript := s.transcript ++ [.answered (.peek off len) (.bytes p)] }) ∧
    (s.block.rem < off + len →
      exec (.peek off len) s = .next { s with transcript := s.transcript ++ [.answered (.peek off len) .absent] })

/-- R75: INGEST of `a` and then of `b` leaves the same block as INGEST of `a ++ b`. That this holds with a finite `CAP` even
past it is the model's choice (assumption 13). -/
def Obligations.IngestKeepsNoChunkBoundary : Prop :=
  ∀ (a b : List Byte) (s : State), execAll [.ingest a, .ingest b] s = exec (.ingest (a ++ b)) s

/-! ### 41_header_decoder.md -/

/-- R80: DECODE answers the header whose fields are the rule's shifts and masks of the six bytes, on natural numbers, and
touches no state. -/
def Obligations.DecodeShiftsAndMasks : Prop :=
  ∀ (b0 b1 b2 b3 b4 b5 : Byte) (s : State), ∃ h : Header,
    exec (.decode (headerWord b0 b1 b2 b3 b4 b5)) s = .next { s with
      transcript := s.transcript ++ [.answered (.decode (headerWord b0 b1 b2 b3 b4 b5)) (.header h)] } ∧
    h.version.toNat = b0.toNat >>> 5 ∧
    h.packetType.toNat = (b0.toNat >>> 4) &&& 1 ∧
    h.secondaryHeaderFlag.toNat = (b0.toNat >>> 3) &&& 1 ∧
    h.apid.toNat = ((b0.toNat &&& 0x07) <<< 8) ||| b1.toNat ∧
    h.sequenceFlags.toNat = b2.toNat >>> 6 ∧
    h.sequenceCount.toNat = ((b2.toNat &&& 0x3F) <<< 8) ||| b3.toNat ∧
    h.lengthField.toNat = (b4.toNat <<< 8) ||| b5.toNat ∧
    h.endianness = .big

/-- R51, R33: the three views agree: each field is its slice of the 48-bit value, its slice of the Control, Sequence or
Length word, and its bits of the bytes. -/
def Obligations.HeaderViewsAgree : Prop :=
  ∀ b0 b1 b2 b3 b4 b5 : Byte,
    let h := decodeHdr b0 b1 b2 b3 b4 b5
    let H := headerWord b0 b1 b2 b3 b4 b5
    let W0 := be16 b0 b1
    let W1 := be16 b2 b3
    let W2 := be16 b4 b5
    (h.version = H.extractLsb' 45 3 ∧ h.version = W0.extractLsb' 13 3 ∧ h.version = b0.extractLsb' 5 3) ∧
    (h.packetType = H.extractLsb' 44 1 ∧ h.packetType = W0.extractLsb' 12 1 ∧ h.packetType = b0.extractLsb' 4 1) ∧
    (h.secondaryHeaderFlag = H.extractLsb' 43 1 ∧ h.secondaryHeaderFlag = W0.extractLsb' 11 1 ∧
      h.secondaryHeaderFlag = b0.extractLsb' 3 1) ∧
    (h.apid = H.extractLsb' 32 11 ∧ h.apid = W0.extractLsb' 0 11 ∧ h.apid = b0.extractLsb' 0 3 ++ b1) ∧
    (h.sequenceFlags = H.extractLsb' 30 2 ∧ h.sequenceFlags = W1.extractLsb' 14 2 ∧
      h.sequenceFlags = b2.extractLsb' 6 2) ∧
    (h.sequenceCount = H.extractLsb' 16 14 ∧ h.sequenceCount = W1.extractLsb' 0 14 ∧
      h.sequenceCount = b2.extractLsb' 0 6 ++ b3) ∧
    (h.lengthField = H.extractLsb' 0 16 ∧ h.lengthField = W2 ∧ h.lengthField = b4 ++ b5)

/-- The DECODE operand is the six bytes of R54: decoding a slice is decoding its bytes, each field at its place in
`slice[47:0]`. -/
def Obligations.DecodeOperandBitPlaces : Prop :=
  ∀ (slice : BitVec 48) (s : State), ∃ h : Header,
    exec (.decode slice) s = .next { s with transcript := s.transcript ++ [.answered (.decode slice) (.header h)] } ∧
    h.version = slice.extractLsb' 45 3 ∧ h.packetType = slice.extractLsb' 44 1 ∧
    h.secondaryHeaderFlag = slice.extractLsb' 43 1 ∧ h.apid = slice.extractLsb' 32 11 ∧
    h.sequenceFlags = slice.extractLsb' 30 2 ∧ h.sequenceCount = slice.extractLsb' 16 14 ∧
    h.lengthField = slice.extractLsb' 0 16 ∧ h.endianness = .big

/-- R84, R61: for all field values `decode_hdr(encode_hdr(f))` has the fields `f`, and for all six bytes `encode_hdr` of
what they decode to is those bytes: no bit is dropped, none invented, and no value is refused. -/
def Obligations.HeaderCodecRoundTrip : Prop :=
  (∀ h : Header, h.endianness = .big → decodeHdrSeq (encodeHdr h) = some h) ∧
  (∀ b0 b1 b2 b3 b4 b5 : Byte, encodeHdr (decodeHdr b0 b1 b2 b3 b4 b5) = [b0, b1, b2, b3, b4, b5]) ∧
  ∀ bytes : List Byte, bytes.length = 6 → ∃ h, decodeHdrSeq bytes = some h ∧ encodeHdr h = bytes

/-- R82: each field depends only on the bits the table gives it. -/
def Obligations.FieldsDependOnOwnBitsOnly : Prop :=
  ∀ b0 b1 b2 b3 b4 b5 c0 c1 c2 c3 c4 c5 : Byte,
    let h := decodeHdr b0 b1 b2 b3 b4 b5
    let g := decodeHdr c0 c1 c2 c3 c4 c5
    (b0 &&& 0xE0 = c0 &&& 0xE0 → h.version = g.version) ∧
    (b0 &&& 0x10 = c0 &&& 0x10 → h.packetType = g.packetType) ∧
    (b0 &&& 0x08 = c0 &&& 0x08 → h.secondaryHeaderFlag = g.secondaryHeaderFlag) ∧
    (b0 &&& 0x07 = c0 &&& 0x07 → b1 = c1 → h.apid = g.apid) ∧
    (b2 &&& 0xC0 = c2 &&& 0xC0 → h.sequenceFlags = g.sequenceFlags) ∧
    (b2 &&& 0x3F = c2 &&& 0x3F → b3 = c3 → h.sequenceCount = g.sequenceCount) ∧
    (b4 = c4 → b5 = c5 → h.lengthField = g.lengthField) ∧
    h.endianness = g.endianness

/-- The literal vectors of 95_test_vectors.md that show each field at its place (V-DEC rows 1, 2, 4, 9, 16, 20, 24). -/
def Obligations.LiteralHeaderVectors : Prop :=
  decodeHdr 0x18 0x96 0xC0 0x00 0x00 0x05 = ⟨0, 1, 1, 150, 3, 0, 5, .big⟩ ∧
  decodeHdr 0x0C 0x16 0xC0 0x00 0x00 0x05 = ⟨0, 0, 1, 1046, 3, 0, 5, .big⟩ ∧
  decodeHdr 0xFF 0xFF 0xFF 0xFF 0xFF 0xFF = ⟨7, 1, 1, 2047, 3, 16383, 65535, .big⟩ ∧
  decodeHdr 0x04 0x00 0x00 0x00 0x00 0x00 = ⟨0, 0, 0, 1024, 0, 0, 0, .big⟩ ∧
  decodeHdr 0x00 0x00 0x20 0x00 0x00 0x00 = ⟨0, 0, 0, 0, 0, 8192, 0, .big⟩ ∧
  decodeHdr 0x00 0x00 0x00 0x00 0x01 0x00 = ⟨0, 0, 0, 0, 0, 0, 256, .big⟩ ∧
  decodeHdr 0xA5 0x5A 0x96 0x69 0xC3 0x3C = ⟨5, 0, 0, 1370, 2, 5737, 49980, .big⟩

/-! ### 42_endianness_resolver.md -/

/-- R90: RESOLVE answers `BIG` in every state and writes nothing. -/
def Obligations.ResolveAnswersBig : Prop :=
  ∀ s : State, exec .resolve s = .next { s with transcript := s.transcript ++ [.answered .resolve (.order .big)] }

/-- R91: every header the block ever returns carries the constant, so the field and RESOLVE cannot disagree. -/
def Obligations.ReturnedHeadersCarryTheByteOrder : Prop :=
  ∀ (i : Instr) (s t : State) (h : Header), s.block.Inv → exec i s = .next t →
    t.transcript = s.transcript ++ [.answered i (.header h)] → h.endianness = resolve ∧ resolve = .big

/-! ### 43_packet_extractor.md -/

/-- R98: RECEIVE appends the chunk; in `Exhausted` it decodes the header at the cursor as soon as six bytes are there, and
in any other case nothing else changes. -/
def Obligations.ReceiveAppendsAndResumes : Prop :=
  ∀ (c : List Byte) (s : State), (∀ k, s.cfg.cap = some k → s.block.rem + c.length ≤ k) →
    let grown : Block := { s.block with stream := s.block.stream ++ c }
    let answered := s.transcript ++ [.answered (.receive c) .accepted]
    (s.block.st ≠ .exhausted → exec (.receive c) s = .next { s with block := grown, transcript := answered }) ∧
    (s.block.st = .exhausted → grown.rem < 6 →
      exec (.receive c) s = .next { s with block := grown, transcript := answered }) ∧
    (s.block.st = .exhausted → ∀ h, StartsWithHeader grown.live h →
      exec (.receive c) s = .next { s with
        block := { grown with st := .headerReady, hdr := some h }, transcript := answered })

/-- R99: CURRENT_HEADER answers the cached header with nothing changed, or decodes and caches the one at the cursor, or
answers `NONE` with nothing changed. -/
def Obligations.CurrentHeaderPeeks : Prop :=
  ∀ s : State,
    (∀ h, s.block.st = .headerReady → s.block.hdr = some h →
      exec .currentHeader s = .next { s with
        transcript := s.transcript ++ [.answered .currentHeader (.header h)] }) ∧
    (∀ h, s.block.st ≠ .headerReady → StartsWithHeader s.block.live h →
      exec .currentHeader s = .next { s with
        block := { s.block with st := .headerReady, hdr := some h },
        transcript := s.transcript ++ [.answered .currentHeader (.header h)] }) ∧
    (s.block.st ≠ .headerReady → s.block.rem < 6 →
      exec .currentHeader s = .next { s with transcript := s.transcript ++ [.answered .currentHeader .absent] })

/-- R101: PULL_PACKET with too few bytes for a header answers `NONE` and leaves `Exhausted`; with a header and too few
bytes for its packet it answers `NONE`, moves nothing and keeps the header; otherwise it hands out exactly
`6 + length_field + 1` bytes from the cursor, steps past them, clears the cache and leaves `Empty`. -/
def Obligations.PullPacketHandsOutOnePacket : Prop :=
  ∀ s : State,
    (s.block.st ≠ .headerReady → s.block.rem < 6 →
      exec .pullPacket s = .next { s with
        block := { s.block with st := .exhausted },
        transcript := s.transcript ++ [.answered .pullPacket .absent] }) ∧
    ∀ h, (s.block.st = .headerReady ∧ s.block.hdr = some h) ∨
        (s.block.st ≠ .headerReady ∧ StartsWithHeader s.block.live h) →
      (s.block.rem < 6 + h.lengthField.toNat + 1 →
        exec .pullPacket s = .next { s with
          block := { s.block with st := .headerReady, hdr := some h },
          transcript := s.transcript ++ [.answered .pullPacket .absent] }) ∧
      (6 + h.lengthField.toNat + 1 ≤ s.block.rem →
        (s.block.live.take (6 + h.lengthField.toNat + 1)).length = 6 + h.lengthField.toNat + 1 ∧
        exec .pullPacket s = .next { s with
          block :=
            { stream := s.block.stream, cursor := s.block.cursor + (6 + h.lengthField.toNat + 1), st := .empty,
              hdr := none },
          transcript := s.transcript ++
            [.answered .pullPacket (.bytes (s.block.live.take (6 + h.lengthField.toNat + 1)))] })

/-- R100: two CURRENT_HEADER in a row give the same response and the second changes no state; neither changes the
stream, the cursor or `rem()`. RECEIVEs between them leave the header of an `OK` response the same. -/
def Obligations.CurrentHeaderIsIdempotent : Prop :=
  (∀ s t u : State, exec .currentHeader s = .next t → exec .currentHeader t = .next u →
    ∃ r, t.transcript = s.transcript ++ [.answered .currentHeader r] ∧
      u.transcript = t.transcript ++ [.answered .currentHeader r] ∧ u.block = t.block ∧
      t.block.stream = s.block.stream ∧ t.block.cursor = s.block.cursor ∧ t.block.rem = s.block.rem) ∧
  ∀ (s t u v : State) (cs : List (List Byte)) (h : Header), s.block.Inv →
    exec .currentHeader s = .next t → t.transcript = s.transcript ++ [.answered .currentHeader (.header h)] →
    execAll (cs.map .receive) t = .next u → exec .currentHeader u = .next v →
    v.transcript = u.transcript ++ [.answered .currentHeader (.header h)]

/-- R102: after an `OK` pull REMAINING has gone down by exactly the packet's length, which is `6 + length_field + 1` for
the header at the cursor; after a `NONE` it is unchanged. -/
def Obligations.PullConsumesExactlyOnePacket : Prop :=
  ∀ s t : State, s.block.Inv → exec .pullPacket s = .next t →
    (t.transcript = s.transcript ++ [.answered .pullPacket .absent] ∧ t.block.rem = s.block.rem) ∨
    ∃ h p, StartsWithHeader s.block.live h ∧ t.transcript = s.transcript ++ [.answered .pullPacket (.bytes p)] ∧
      p.length = 6 + h.lengthField.toNat + 1 ∧ p.length ≤ s.block.rem ∧ t.block.rem = s.block.rem - p.length

/-- R103: the table: state, cached header and cursor after every command, from every state that keeps the invariants.
The header cached in `HeaderReady` is the one at the cursor; in the other states there is none. -/
def Obligations.TransitionTable : Prop :=
  ∀ (i : Instr) (s t : State) (T : Nat), i.WellFormed → s.block.Inv →
    (∀ c, i = .receive c → hasRoom s.cfg s.block c.length = true) →
    (∀ h, StartsWithHeader s.block.live h → T = totalLen h) →
    exec i s = .next t →
    t.block.st = tableSt s.block.st i (match i with | .receive _ => t.block.rem | _ => s.block.rem) T ∧
    t.block.cursor = s.block.cursor + tableMove i s.block.rem T ∧
    (t.block.st = .headerReady → ∃ h, StartsWithHeader t.block.live h ∧ t.block.hdr = some h) ∧
    (t.block.st ≠ .headerReady → t.block.hdr = none)

/-- R104: live bytes that are a proper prefix of a packet: a pull answers `NONE` and moves nothing; after the missing
bytes a pull answers the packet, and nothing is left. -/
def Obligations.ExhaustionAndResumption : Prop :=
  ∀ (s : State) (x y : List Byte) (h : Header), s.block.Inv → s.cfg.cap = none → s.block.live = x → y ≠ [] →
    StartsWithHeader (x ++ y) h → (x ++ y).length = 6 + h.lengthField.toNat + 1 →
    ∃ t u v, exec .pullPacket s = .next t ∧
      t.transcript = s.transcript ++ [.answered .pullPacket .absent] ∧
      t.block.stream = s.block.stream ∧ t.block.cursor = s.block.cursor ∧
      t.block.st = (if x.length < 6 then .exhausted else .headerReady) ∧
      exec (.receive y) t = .next u ∧ u.transcript = t.transcript ++ [.answered (.receive y) .accepted] ∧
      exec .pullPacket u = .next v ∧ v.transcript = u.transcript ++ [.answered .pullPacket (.bytes (x ++ y))] ∧
      v.block.rem = 0

/-- R105: RECEIVE `a` and then RECEIVE `b` leaves exactly the same four pieces of state as RECEIVE `a ++ b`, from any
state, and so does any split of a byte sequence into chunks, empty ones among them. -/
def Obligations.ChunkingDoesNotMatter : Prop :=
  (∀ (a b : List Byte) (s t u : State), s.cfg.cap = none →
    execAll [.receive a, .receive b] s = .next t → exec (.receive (a ++ b)) s = .next u → t.block = u.block) ∧
  ∀ (c : List Byte) (cs : List (List Byte)) (s t u : State), s.cfg.cap = none →
    execAll ((c :: cs).map .receive) s = .next t → exec (.receive (c :: cs).flatten) s = .next u → t.block = u.block

/-- R105, R65: feeding bytes one at a time leaves the same four pieces of state as feeding them whole (the source's
"Partial-chunk tolerance"). -/
def Obligations.BytewiseFeedingIsTheSame : Prop :=
  ∀ (bytes : List Byte) (s : State), s.cfg.cap = none → s.block.Inv →
    ∃ t u, execAll (feedAll bytes) s = .next t ∧ execAll (feedBytewise bytes) s = .next u ∧ t.block = u.block

/-- R106: what each command answers, in terms of the live bytes alone, and the live bytes it leaves. -/
def Obligations.AnswersFromLiveBytes : Prop :=
  ∀ (i : Instr) (s t : State) (r : Response), s.block.Inv → exec i s = .next t →
    t.transcript = s.transcript ++ [.answered i r] →
    (i = .remaining → r = .count s.block.live.length ∧ t.block.live = s.block.live) ∧
    (∀ off len, i = .peek off len → t.block.live = s.block.live ∧
      r = if off + len ≤ s.block.live.length then .bytes ((s.block.live.drop off).take len) else .absent) ∧
    (i = .currentHeader → t.block.live = s.block.live ∧
      (∀ h, StartsWithHeader s.block.live h → r = .header h) ∧ (s.block.live.length < 6 → r = .absent)) ∧
    (i = .pullPacket →
      (∀ h, StartsWithHeader s.block.live h → totalLen h ≤ s.block.live.length →
        r = .bytes (s.block.live.take (totalLen h)) ∧ t.block.live = s.block.live.drop (totalLen h)) ∧
      (∀ h, StartsWithHeader s.block.live h → s.block.live.length < totalLen h →
        r = .absent ∧ t.block.live = s.block.live) ∧
      (s.block.live.length < 6 → r = .absent ∧ t.block.live = s.block.live)) ∧
    ∀ c, i = .receive c → s.cfg.cap = none → r = .accepted ∧ t.block.live = s.block.live ++ c

/-- R106, R24, R12: the responses are a function of the live bytes and the commands: two states that keep the invariants
and agree on the live bytes (and on `CAP`) answer any sequence of commands alike and end with the same live bytes,
whatever their consumed bytes, their cursor, their state and their cached header. -/
def Obligations.ResponsesRevealOnlyLiveBytes : Prop :=
  ∀ (is : List Instr) (s t : State), (∀ i ∈ is, i.WellFormed) → s.block.Inv → t.block.Inv →
    s.cfg = t.cfg → s.block.live = t.block.live →
    ∃ s' t' events, execAll is s = .next s' ∧ execAll is t = .next t' ∧
      s'.transcript = s.transcript ++ events ∧ t'.transcript = t.transcript ++ events ∧
      events.length = is.length ∧ s'.block.live = t'.block.live

/-- R107: "appending never changes packets already framed". -/
def Obligations.FramingIsStableUnderAppend : Prop :=
  ∀ bytes c : List Byte,
    frame (bytes ++ c) =
      ((frame bytes).1 ++ (frame ((frame bytes).2 ++ c)).1, (frame ((frame bytes).2 ++ c)).2)

/-- R107: DRAIN obtains exactly the framed packets, in order, in that many successful pulls, then one `NONE`; it leaves the
tail, in `Exhausted` when fewer than six bytes are left and in `HeaderReady` otherwise. -/
def Obligations.DrainHandsOutTheFramedPackets : Prop :=
  ∀ s : State, s.block.Inv →
    ∃ t, execAll (List.replicate ((frame s.block.live).1.length + 1) .pullPacket) s = .next t ∧
      t.transcript = s.transcript ++ (frame s.block.live).1.map (fun p => .answered .pullPacket (.bytes p)) ++
        [.answered .pullPacket .absent] ∧
      t.block.live = (frame s.block.live).2 ∧
      t.block.st = (if (frame s.block.live).2.length < 6 then .exhausted else .headerReady)

/-- R107: every step keeps the account of the port: the stream is what was fed since reset, and its consumed part is the
packets handed out, in order. The transcript that says so is the model's (assumption 3). -/
def Obligations.EveryStepKeepsTheAccount : Prop :=
  ∀ s t : State, s.block.cursor ≤ s.block.stream.length → s.Accounted → step s = .next t → t.Accounted

/-- R107, R41: in every reachable state the packets handed out, in order, followed by the live bytes, are exactly the
bytes fed, in order: none twice, none skipped. -/
def Obligations.EveryFedByteOnceAndInOrder : Prop :=
  ∀ s : State, Reachable s →
    (handedPackets [] s.transcript).flatten ++ s.block.live = fedBytes [] s.transcript

/-- R108: two back-to-back packets with `length_field` 3 and 0 fed as one chunk: the state is `Empty` with 17 live bytes;
the first pull hands out ten bytes and leaves seven, the second hands out seven and leaves none, the third answers
`NONE` and leaves `Exhausted`. -/
def Obligations.TwoPacketScenario : Prop :=
  ∀ (p q : List Byte) (hp hq : Header), StartsWithHeader p hp → hp.lengthField = 3 → p.length = 10 →
    StartsWithHeader q hq → hq.lengthField = 0 → q.length = 7 →
    ∃ t1 t2 t3 t4,
      exec (.receive (p ++ q)) State.reset = .next t1 ∧ t1.block.st = .empty ∧ t1.block.rem = 17 ∧
      exec .pullPacket t1 = .next t2 ∧ t2.block.st = .empty ∧ t2.block.rem = 7 ∧
      exec .pullPacket t2 = .next t3 ∧ t3.block.st = .empty ∧ t3.block.rem = 0 ∧
      exec .pullPacket t3 = .next t4 ∧
      t4.transcript = [.answered (.receive (p ++ q)) .accepted, .answered .pullPacket (.bytes p),
        .answered .pullPacket (.bytes q), .answered .pullPacket .absent] ∧
      t4.block = { stream := p ++ q, cursor := 17, st := .exhausted, hdr := none }

/-! ### 60_exceptions.md and 70_reset_and_hazards.md -/

/-- R126, R121: every answer that is not `OK` is precise: the stream and the cursor are untouched; but for PULL_PACKET the
whole block is. -/
def Obligations.NonOkAnswersArePrecise : Prop :=
  ∀ (i : Instr) (s t : State) (r : Response), exec i s = .next t → t.transcript = s.transcript ++ [.answered i r] →
    r.status ≠ .ok →
    t.block.stream = s.block.stream ∧ t.block.cursor = s.block.cursor ∧ (i ≠ .pullPacket → t.block = s.block)

/-- R149: the same command repeated with nothing fed in between answers `NONE` again, and leaves the block as it is. -/
def Obligations.RetryWithoutFeedingNeverHelps : Prop :=
  ∀ (i : Instr) (s t : State), exec i s = .next t → t.transcript = s.transcript ++ [.answered i .absent] →
    ∃ u, exec i t = .next u ∧ u.transcript = t.transcript ++ [.answered i .absent] ∧ u.block = t.block

/-- R151: with a `CAP` below the length of the packet at the cursor the block is wedged until reset: every step but a reset
keeps it so, and no packet is ever handed out. -/
def Obligations.SmallCapacityWedgesUntilReset : Prop :=
  ∀ s t : State, s.Wedged → s.NoResetNext → step s = .next t →
    t.Wedged ∧ handedPackets [] t.transcript = handedPackets [] s.transcript

/-- R151: "`CAP >= 65542` rules this out for every header". -/
def Obligations.LargeCapacityNeverWedges : Prop :=
  ∀ s : State, (∀ k, s.cfg.cap = some k → 65542 ≤ k) → ¬ s.Wedged

/-- R152: the canonical run. From reset, any commands whose chunks concatenate to the input, and then a drain of enough
pulls: the host has been handed exactly the framed packets of the input in order, REMAINING answers the length of the
tail, and the state is `Exhausted` when fewer than six bytes are left, else `HeaderReady`. -/
def Obligations.CanonicalRunHandsOutTheFramedInput : Prop :=
  ∀ (is : List Instr) (n : Nat), (∀ i ∈ is, i.WellFormed) → (frame (chunksOf is)).1.length < n →
    ∃ t : State,
      Sys2Proof.core.run (is.length + n)
        (State.start Config.decided (commandsOf (is ++ List.replicate n .pullPacket))) = .next t ∧
      handedPackets [] t.transcript = (frame (chunksOf is)).1 ∧
      t.block.live = (frame (chunksOf is)).2 ∧
      exec .remaining t = .next { t with
        transcript := t.transcript ++ [.answered .remaining (.count (frame (chunksOf is)).2.length)] } ∧
      t.block.st = (if (frame (chunksOf is)).2.length < 6 then .exhausted else .headerReady)
end

