-- ==== Sys2Proof/Laws/State.lean ====
section
/-! SUPPORT. One lemma for each field of the state under each update, true by `rfl`, so that no later proof unfolds a
record update. -/

namespace Sys2Proof.Machine

@[simp] theorem State.respond_block (i : Instr) (r : Response) (s : State) :
    (s.respond i r).block = s.block := rfl
@[simp] theorem State.respond_cfg (i : Instr) (r : Response) (s : State) :
    (s.respond i r).cfg = s.cfg := rfl
@[simp] theorem State.respond_inputs (i : Instr) (r : Response) (s : State) :
    (s.respond i r).inputs = s.inputs := rfl
@[simp] theorem State.respond_transcript (i : Instr) (r : Response) (s : State) :
    (s.respond i r).transcript = s.transcript ++ [.answered i r] := rfl
@[simp] theorem State.respond_stepResult (i : Instr) (r : Response) (s : State) :
    (s.respond i r).stepResult = s.stepResult := rfl

@[simp] theorem State.withBlock_block (b : Block) (s : State) :
    (s.withBlock b).block = b := rfl
@[simp] theorem State.withBlock_cfg (b : Block) (s : State) :
    (s.withBlock b).cfg = s.cfg := rfl
@[simp] theorem State.withBlock_inputs (b : Block) (s : State) :
    (s.withBlock b).inputs = s.inputs := rfl
@[simp] theorem State.withBlock_transcript (b : Block) (s : State) :
    (s.withBlock b).transcript = s.transcript := rfl
@[simp] theorem State.withBlock_stepResult (b : Block) (s : State) :
    (s.withBlock b).stepResult = s.stepResult := rfl

@[simp] theorem State.withStepResult_block (r : StepResult) (s : State) :
    (s.withStepResult r).block = s.block := rfl
@[simp] theorem State.withStepResult_cfg (r : StepResult) (s : State) :
    (s.withStepResult r).cfg = s.cfg := rfl
@[simp] theorem State.withStepResult_inputs (r : StepResult) (s : State) :
    (s.withStepResult r).inputs = s.inputs := rfl
@[simp] theorem State.withStepResult_transcript (r : StepResult) (s : State) :
    (s.withStepResult r).transcript = s.transcript := rfl
@[simp] theorem State.withStepResult_stepResult (r : StepResult) (s : State) :
    (s.withStepResult r).stepResult = some r := rfl

@[simp] theorem resetEvent_block (s : State) :
    (resetEvent s).block = Block.reset := rfl
@[simp] theorem resetEvent_cfg (s : State) :
    (resetEvent s).cfg = s.cfg := rfl
@[simp] theorem resetEvent_inputs (s : State) :
    (resetEvent s).inputs = s.inputs := rfl
@[simp] theorem resetEvent_transcript (s : State) :
    (resetEvent s).transcript = s.transcript ++ [.reset] := rfl
@[simp] theorem resetEvent_stepResult (s : State) :
    (resetEvent s).stepResult = s.stepResult := rfl

@[simp] theorem cacheHeader_stream (h : Header) (b : Block) :
    (cacheHeader h b).stream = b.stream := rfl
@[simp] theorem cacheHeader_cursor (h : Header) (b : Block) :
    (cacheHeader h b).cursor = b.cursor := rfl
@[simp] theorem cacheHeader_st (h : Header) (b : Block) :
    (cacheHeader h b).st = .headerReady := rfl
@[simp] theorem cacheHeader_hdr (h : Header) (b : Block) :
    (cacheHeader h b).hdr = some h := rfl

@[simp] theorem ingest_cursor (v : List Byte) (b : Block) :
    (ingest v b).cursor = b.cursor := rfl
@[simp] theorem ingest_st (v : List Byte) (b : Block) :
    (ingest v b).st = b.st := rfl
@[simp] theorem ingest_hdr (v : List Byte) (b : Block) :
    (ingest v b).hdr = b.hdr := rfl

@[simp] theorem Block.reset_stream : Block.reset.stream = [] := rfl
@[simp] theorem Block.reset_cursor : Block.reset.cursor = 0 := rfl
@[simp] theorem Block.reset_st : Block.reset.st = .empty := rfl
@[simp] theorem Block.reset_hdr : Block.reset.hdr = none := rfl

@[simp] theorem State.reset_block : State.reset.block = Block.reset := rfl
@[simp] theorem State.reset_cfg : State.reset.cfg = Config.decided := rfl
@[simp] theorem State.reset_inputs : State.reset.inputs = [] := rfl
@[simp] theorem State.reset_transcript : State.reset.transcript = [] := rfl
@[simp] theorem State.reset_stepResult : State.reset.stepResult = none := rfl

end Sys2Proof.Machine
end

