-- ==== Sys2Proof/Laws/Memory.lean ====
section
/-! SUPPORT. The stream as memory: what a read and an append do, that a stream's cells have their one form, and the live
bytes as the view every command reads through. -/

namespace Sys2Proof.Machine

/-- A store at the end is an append (R8). -/
@[simp] theorem memWrite_at_end (m v : List Byte) : memWrite m m.length v.length v = m ++ v := by simp [memWrite]

/-- R70: INGEST appends. -/
@[simp] theorem ingest_stream (v : List Byte) (b : Block) : (ingest v b).stream = b.stream ++ v := by
  simp [ingest, appendAddr]

theorem memRead_length (m : List Byte) (a n : Nat) : (memRead m a n).length = min n (m.length - a) := by simp [memRead]

/-- A read is the front of what starts at its address. -/
theorem memRead_eq_take_drop (m : List Byte) (a n : Nat) : memRead m a n = (m.drop a).take n := rfl

/-- Bytes already stored do not change when bytes are appended (R10). -/
theorem memRead_append (m v : List Byte) (a n : Nat) (h : a + n ≤ m.length) : memRead (m ++ v) a n = memRead m a n := by
  simp only [memRead]
  rw [List.drop_append_of_le_length (by omega), List.take_append_of_le_length (by simp; omega)]

theorem Block.live_length (b : Block) : b.live.length = b.rem := by simp [Block.live, Block.rem]

/-- What PEEK reads, in terms of the live bytes alone (R12). -/
theorem memRead_offset (b : Block) (off len : Nat) :
    memRead b.stream (offsetAddr b off) len = (b.live.drop off).take len := by
  simp [memRead, offsetAddr, Block.live, List.drop_drop]

theorem memRead_cursor (b : Block) (n : Nat) : memRead b.stream (cursorAddr b) n = b.live.take n := rfl

/-- An append grows the live bytes at their end, as long as the cursor is inside the stream (R16). -/
theorem ingest_live (v : List Byte) (b : Block) (h : b.cursor ≤ b.stream.length) : (ingest v b).live = b.live ++ v := by
  simp [Block.live, List.drop_append_of_le_length h]

theorem ingest_rem (v : List Byte) (b : Block) (h : b.cursor ≤ b.stream.length) :
    (ingest v b).rem = b.rem + v.length := by
  simp [Block.rem]; omega

/-- Every stream's cells have the one form: addresses rising, none at or above the length. -/
theorem Memory.wf_all (m : List Byte) : Memory.wf m := by
  refine ⟨?_, ?_⟩
  · rw [Memory.cells, List.pairwise_map, List.pairwise_iff_getElem]
    intro i j hi hj hij
    simpa using hij
  · intro c hc
    simp only [Memory.cells, List.mem_map, Prod.exists] at hc
    obtain ⟨x, k, hx, rfl⟩ := hc
    have := List.mem_zipIdx hx
    simpa using this.2.1

/-- The only store keeps the form. -/
theorem memWrite_wf (m v : List Byte) (a n : Nat) (_ : Memory.wf m) : Memory.wf (memWrite m a n v) := Memory.wf_all _

theorem reset_memory_wf : Memory.wf State.reset.block.stream := Memory.wf_all _

/-- Memory at one address after an append: below the old length as before, then the appended bytes (R70). -/
theorem ingest_readByte (v : List Byte) (b : Block) (a : Nat) :
    (ingest v b).readByte a = if a < b.stream.length then b.readByte a else v[a - b.stream.length]? := by
  simp [Block.readByte, List.getElem?_append]

/-- R73, said once: what ADVANCE does. -/
theorem advance_spec (n : Nat) (b : Block) :
    (b.rem < n ∧ advance n b = (.fail, b)) ∨ (n ≤ b.rem ∧ advance n b = (.done, { b with cursor := b.cursor + n })) := by
  unfold advance
  split
  · exact .inl ⟨‹_›, rfl⟩
  · exact .inr ⟨by omega, rfl⟩

/-- The tests of PEEK with and without the addition agree (R111). -/
theorem peek_test_without_sum (r off len : Nat) : r < off + len ↔ r < off ∨ r - off < len := by omega

end Sys2Proof.Machine
end

