-- ==== Sys2Proof/Laws/Header.lean ====
section
/-! SUPPORT. The header decoder: fields as slices of the 48-bit value, and the facts about lengths. -/

namespace Sys2Proof.Machine

/-- R96: the total length as the formula of the source. -/
theorem totalLen_eq (h : Header) : totalLen h = 6 + h.lengthField.toNat + 1 := rfl

theorem totalLen_min (h : Header) : minTotal ≤ totalLen h := by
  simp only [totalLen, minTotal, hdrLen]; omega

theorem totalLen_max (h : Header) : totalLen h ≤ maxTotal := by
  have := h.lengthField.isLt
  simp only [totalLen, maxTotal, hdrLen]; omega

theorem totalLen_pos (h : Header) : 0 < totalLen h := Nat.lt_of_lt_of_le (by decide) (totalLen_min h)

/-- R91: every decode carries the constant byte order. -/
@[simp] theorem decodeHdr_endianness (b0 b1 b2 b3 b4 b5 : Byte) : (decodeHdr b0 b1 b2 b3 b4 b5).endianness = .big := rfl

theorem decodeHdrSeq_endianness {m : List Byte} {h : Header} (e : decodeHdrSeq m = some h) : h.endianness = .big := by
  unfold decodeHdrSeq at e
  split at e
  · cases e; rfl
  · cases e

/-- R80, C5: the decoder answers exactly for six bytes. -/
theorem decodeHdrSeq_isSome (m : List Byte) : (decodeHdrSeq m).isSome ↔ m.length = 6 := by
  rcases m with _ | ⟨a, _ | ⟨b, _ | ⟨c, _ | ⟨d, _ | ⟨e, _ | ⟨f, _ | ⟨g, m⟩⟩⟩⟩⟩⟩⟩ <;> simp [decodeHdrSeq]

end Sys2Proof.Machine
end

