-- ==== Sys2Proof/Laws/Extractor.lean ====
section
/-! SUPPORT. One spec lemma for each operation of the Packet Extractor, in terms of the live bytes, and the invariants
R16 to R19 kept by each. -/

namespace Sys2Proof.Machine

/-- The header that `L[0 .. 6)` decodes to (R106). -/
def headerOf (bytes : List Byte) : Option Header := decodeHdrSeq (bytes.take hdrLen)

theorem headerOf_isSome (bytes : List Byte) : (headerOf bytes).isSome ↔ 6 ≤ bytes.length := by
  simp [headerOf, decodeHdrSeq_isSome, hdrLen]

theorem headerOf_none {bytes : List Byte} (h : bytes.length < 6) : headerOf bytes = none := by
  rw [← Option.not_isSome_iff_eq_none, headerOf_isSome]; omega

theorem headerOf_exists {bytes : List Byte} (h : 6 ≤ bytes.length) : ∃ x, headerOf bytes = some x :=
  Option.isSome_iff_exists.mp ((headerOf_isSome bytes).mpr h)

/-- Appending does not change the header at the front (R44). -/
theorem headerOf_append {bytes : List Byte} (v : List Byte) (h : 6 ≤ bytes.length) :
    headerOf (bytes ++ v) = headerOf bytes := by
  simp only [headerOf, hdrLen]
  rw [List.take_append_of_le_length h]

/-- R97: the decode at the cursor is the header of the live bytes. -/
theorem decodeAtCursor_eq (b : Block) : decodeAtCursor b = headerOf b.live := by
  unfold decodeAtCursor
  split
  · rfl
  · rw [headerOf_none]
    rw [Block.live_length]
    simp only [hdrLen] at *
    omega

@[simp] theorem cacheHeader_live (h : Header) (b : Block) : (cacheHeader h b).live = b.live := rfl
@[simp] theorem cacheHeader_rem (h : Header) (b : Block) : (cacheHeader h b).rem = b.rem := rfl

/-- R97, said once. -/
theorem tryDecode_eq (b : Block) : tryDecode b = (headerOf b.live).map fun h => cacheHeader h b := by
  rw [tryDecode, decodeAtCursor_eq]

/-- `ensureHeader` with a cached header answers it and changes nothing. -/
theorem ensureHeader_cached {b : Block} {h : Header} (hs : b.st = .headerReady) (hh : b.hdr = some h) :
    ensureHeader b = some (h, b) := by simp [ensureHeader, hs, hh]

/-- `ensureHeader` in any other state is a decode at the cursor. -/
theorem ensureHeader_decodes {b : Block} (hs : b.st ≠ .headerReady) :
    ensureHeader b = (headerOf b.live).map fun h => (h, cacheHeader h b) := by
  unfold ensureHeader
  split
  · exact absurd ‹_› hs
  · rw [decodeAtCursor_eq]

/-- What `ensureHeader` leaves: stream and cursor as they were, and the header cached. -/
theorem ensureHeader_frame {b b1 : Block} {h : Header} (e : ensureHeader b = some (h, b1)) :
    b1.stream = b.stream ∧ b1.cursor = b.cursor ∧ b1.st = .headerReady ∧ b1.hdr = some h := by
  unfold ensureHeader at e
  split at e
  · cases e; exact ⟨rfl, rfl, ‹_›, ‹_›⟩
  · obtain ⟨x, -, e⟩ := Option.map_eq_some_iff.mp e
    cases e; exact ⟨rfl, rfl, rfl, rfl⟩

/-- In a state that keeps the invariants the header is the one of the live bytes, cached or not (R18, R106). -/
theorem ensureHeader_of_inv {b : Block} (hi : b.Inv) :
    ensureHeader b = (headerOf b.live).map fun h => (h, cacheHeader h b) := by
  by_cases hs : b.st = .headerReady
  · obtain ⟨-, hc⟩ := hi.ready_cache hs
    obtain ⟨h, hh⟩ := Option.isSome_iff_exists.mp (hi.ready_iff.mp hs)
    have : headerOf b.live = some h := by rw [← hh, hc]; rfl
    rw [ensureHeader_cached hs hh, this]
    cases b
    simp_all [cacheHeader]
  · exact ensureHeader_decodes hs

/-- R99, said once. -/
theorem currentHeader_cases (b : Block) :
    (∃ h b1, ensureHeader b = some (h, b1) ∧ currentHeader b = (.header h, b1)) ∨
    (ensureHeader b = none ∧ currentHeader b = (.absent, b)) := by
  unfold currentHeader
  split
  · exact .inl ⟨_, _, ‹_›, rfl⟩
  · exact .inr ⟨‹_›, rfl⟩

/-- R101, said once: no header, a partial packet, or a packet handed out. -/
theorem pullPacket_cases (b : Block) :
    (ensureHeader b = none ∧ pullPacket b = (.absent, { b with st := .exhausted })) ∨
    (∃ h b1, ensureHeader b = some (h, b1) ∧ b.rem < totalLen h ∧ pullPacket b = (.absent, b1)) ∨
    (∃ h b1, ensureHeader b = some (h, b1) ∧ totalLen h ≤ b.rem ∧
      pullPacket b = (.bytes (b.live.take (totalLen h)),
        { stream := b.stream, cursor := b.cursor + totalLen h, st := .empty, hdr := none })) := by
  unfold pullPacket
  split
  · exact .inl ⟨‹_›, rfl⟩
  · rename_i h b1 e
    obtain ⟨h1, h2, -, -⟩ := ensureHeader_frame e
    have hr : b1.rem = b.rem := by simp [Block.rem, h1, h2]
    rw [hr]
    split
    · exact .inr (.inl ⟨h, b1, e, ‹_›, rfl⟩)
    · refine .inr (.inr ⟨h, b1, e, by omega, ?_⟩)
      rcases advance_spec (totalLen h) b1 with ⟨hlt, -⟩ | ⟨-, ha⟩
      · omega
      · rw [ha, memRead_cursor]
        simp [Block.live, h1, h2]

/-- R98, said once. -/
theorem receiveChunk_cases (c : List Byte) (b : Block) :
    (b.st ≠ .exhausted ∧ receiveChunk c b = ingest c b) ∨
    (b.st = .exhausted ∧ headerOf (ingest c b).live = none ∧ receiveChunk c b = ingest c b) ∨
    (∃ h, b.st = .exhausted ∧ headerOf (ingest c b).live = some h ∧ receiveChunk c b = cacheHeader h (ingest c b)) := by
  have hst : (ingest c b).st = b.st := rfl
  unfold receiveChunk
  simp only [tryDecode_eq]
  split
  · cases e : headerOf (ingest c b).live with
    | none => exact .inr (.inl ⟨hst ▸ ‹_›, rfl, rfl⟩)
    | some h => exact .inr (.inr ⟨h, hst ▸ ‹_›, rfl, rfl⟩)
  · rename_i hs
    exact .inl ⟨by rw [← hst, hs]; decide, rfl⟩
  · rename_i hs
    exact .inl ⟨by rw [← hst, hs]; decide, rfl⟩

@[simp] theorem receiveChunk_stream (c : List Byte) (b : Block) : (receiveChunk c b).stream = b.stream ++ c := by
  rcases receiveChunk_cases c b with ⟨-, e⟩ | ⟨-, -, e⟩ | ⟨h, -, -, e⟩ <;> simp [e]

@[simp] theorem receiveChunk_cursor (c : List Byte) (b : Block) : (receiveChunk c b).cursor = b.cursor := by
  rcases receiveChunk_cases c b with ⟨-, e⟩ | ⟨-, -, e⟩ | ⟨h, -, -, e⟩ <;> simp [e]

/-- The statements' word for a header at the front of the bytes is `headerOf`. -/
theorem startsWithHeader_iff (bytes : List Byte) (h : Header) : StartsWithHeader bytes h ↔ headerOf bytes = some h := by
  constructor
  · rintro ⟨b0, b1, b2, b3, b4, b5, rest, rfl, rfl⟩
    rfl
  · rcases bytes with _ | ⟨a, _ | ⟨b, _ | ⟨c, _ | ⟨d, _ | ⟨e, _ | ⟨f, m⟩⟩⟩⟩⟩⟩ <;> intro hh <;> cases hh
    exact ⟨_, _, _, _, _, _, _, rfl, rfl⟩

/-- R99 in a state that keeps the invariants: the answer is a function of the live bytes. -/
theorem currentHeader_of_inv {b : Block} (hi : b.Inv) : currentHeader b =
    match headerOf b.live with
    | some h => (.header h, cacheHeader h b)
    | none => (.absent, b) := by
  unfold currentHeader
  rw [ensureHeader_of_inv hi]
  cases headerOf b.live <;> rfl

/-- R101 in a state that keeps the invariants: the answer is a function of the live bytes. -/
theorem pullPacket_of_inv {b : Block} (hi : b.Inv) : pullPacket b =
    match headerOf b.live with
    | none => (.absent, { b with st := .exhausted })
    | some h =>
      if b.rem < totalLen h then (.absent, cacheHeader h b)
      else (.bytes (b.live.take (totalLen h)),
        { stream := b.stream, cursor := b.cursor + totalLen h, st := .empty, hdr := none }) := by
  have e := ensureHeader_of_inv hi
  cases hh : headerOf b.live with
  | none => simp only [pullPacket, e, hh, Option.map_none]
  | some h =>
    rw [hh] at e
    rcases pullPacket_cases b with ⟨e1, -⟩ | ⟨x, b1, e1, hl, e2⟩ | ⟨x, b1, e1, hl, e2⟩ <;> rw [e] at e1 <;> cases e1
    · simp only [e2, if_pos hl]
    · simp only [e2, if_neg (Nat.not_lt.mpr hl)]

/-- CURRENT_HEADER moves nothing (R36). -/
theorem currentHeader_frame (b : Block) :
    (currentHeader b).2.stream = b.stream ∧ (currentHeader b).2.cursor = b.cursor := by
  rcases currentHeader_cases b with ⟨x, b1, e, e2⟩ | ⟨-, e2⟩ <;> rw [e2]
  · exact ⟨(ensureHeader_frame e).1, (ensureHeader_frame e).2.1⟩
  · exact ⟨rfl, rfl⟩

/-- PULL_PACKET leaves the stream and moves the cursor forward only. -/
theorem pullPacket_frame (b : Block) : (pullPacket b).2.stream = b.stream ∧ b.cursor ≤ (pullPacket b).2.cursor := by
  rcases pullPacket_cases b with ⟨-, e2⟩ | ⟨x, b1, e, -, e2⟩ | ⟨x, b1, -, -, e2⟩ <;> rw [e2]
  · exact ⟨rfl, Nat.le_refl _⟩
  · exact ⟨(ensureHeader_frame e).1, (ensureHeader_frame e).2.1.ge⟩
  · exact ⟨rfl, Nat.le_add_right _ _⟩

/-- Building the invariant of a state that has just cached the header of its live bytes. -/
theorem inv_of_cached {b : Block} {h : Header} (hc : b.cursor ≤ b.stream.length) (hh : headerOf b.live = some h) :
    (cacheHeader h b).Inv := by
  have h6 : 6 ≤ b.rem := by rw [← Block.live_length, ← headerOf_isSome, hh]; rfl
  refine ⟨hc, by simp, fun _ => ⟨h6, ?_⟩, by simp⟩
  exact hh.symm

theorem reset_block_inv : Block.reset.Inv :=
  ⟨by simp, by simp, by simp, by simp⟩

end Sys2Proof.Machine
end

