-- ==== Sys2Proof/Laws/Exec.lean ====
section
/-! SUPPORT. One lemma for each meaning, the answer `exec` gives; and one lemma that says once what a step is. -/

namespace Sys2Proof.Machine

theorem exec_receive_room (c : List Byte) (s : State) (h : hasRoom s.cfg s.block c.length = true) :
    exec (.receive c) s = .next ((s.withBlock (receiveChunk c s.block)).respond (.receive c) .accepted) := by
  simp [exec, execReceive, h]

theorem exec_receive_full (c : List Byte) (s : State) (h : hasRoom s.cfg s.block c.length = false) :
    exec (.receive c) s = .next (s.respond (.receive c) .full) := by
  simp [exec, execReceive, h]

@[simp] theorem exec_currentHeader (s : State) :
    exec .currentHeader s =
      .next ((s.withBlock (currentHeader s.block).2).respond .currentHeader (currentHeader s.block).1) := rfl

@[simp] theorem exec_pullPacket (s : State) :
    exec .pullPacket s = .next ((s.withBlock (pullPacket s.block).2).respond .pullPacket (pullPacket s.block).1) := rfl

@[simp] theorem exec_remaining (s : State) : exec .remaining s = .next (s.respond .remaining (.count s.block.rem)) := rfl

@[simp] theorem exec_peek (off len : Nat) (s : State) :
    exec (.peek off len) s = .next (s.respond (.peek off len) (peekBytes off len s.block)) := rfl

@[simp] theorem exec_decode (slice : BitVec 48) (s : State) :
    exec (.decode slice) s = .next (s.respond (.decode slice) (.header (decodeSlice slice))) := rfl

@[simp] theorem exec_resolve (s : State) : exec .resolve s = .next (s.respond .resolve (.order .big)) := rfl

@[simp] theorem exec_reserved7 (s : State) : exec .reserved7 s = .next (s.respond .reserved7 .illegal) := rfl

@[simp] theorem exec_ingest (v : List Byte) (s : State) :
    exec (.ingest v) s = .next ((s.withBlock (ingest v s.block)).withStepResult .done) := rfl

@[simp] theorem exec_advance (n : Nat) (s : State) :
    exec (.advance n) s = .next ((s.withBlock (advance n s.block).2).withStepResult (advance n s.block).1) := rfl

/-- The capacity test in words: room unless a finite `CAP` would be passed (R71). -/
theorem hasRoom_iff (cfg : Config) (b : Block) (n : Nat) :
    hasRoom cfg b n = true ↔ ∀ c, cfg.cap = some c → b.rem + n ≤ c := by
  unfold hasRoom
  split <;> simp [*]

/-- What a command of the port can do, said once: it changes the block as its rule says, answers once, and leaves the
parameter, the host's inputs and the internal result alone. -/
theorem exec_command_cases (i : Instr) (s t : State) (hw : i.WellFormed) (e : exec i s = .next t) :
    ∃ b r, t = (s.withBlock b).respond i r ∧
      ((∃ c, i = .receive c ∧ hasRoom s.cfg s.block c.length = true ∧ b = receiveChunk c s.block ∧ r = .accepted) ∨
       (∃ c, i = .receive c ∧ hasRoom s.cfg s.block c.length = false ∧ b = s.block ∧ r = .full) ∨
       (i = .currentHeader ∧ b = (currentHeader s.block).2 ∧ r = (currentHeader s.block).1) ∨
       (i = .pullPacket ∧ b = (pullPacket s.block).2 ∧ r = (pullPacket s.block).1) ∨
       (i = .remaining ∧ b = s.block ∧ r = .count s.block.rem) ∨
       (∃ off len, i = .peek off len ∧ b = s.block ∧ r = peekBytes off len s.block) ∨
       (∃ slice, i = .decode slice ∧ b = s.block ∧ r = .header (decodeSlice slice)) ∨
       (i = .resolve ∧ b = s.block ∧ r = .order .big) ∨
       (i = .reserved7 ∧ b = s.block ∧ r = .illegal)) := by
  cases i with
  | receive c =>
    cases h : hasRoom s.cfg s.block c.length with
    | true => rw [exec_receive_room c s h] at e; cases e; exact ⟨_, _, rfl, by simp [h]⟩
    | false => rw [exec_receive_full c s h] at e; cases e; exact ⟨s.block, _, rfl, by simp [h]⟩
  | currentHeader => cases e; exact ⟨_, _, rfl, by simp⟩
  | pullPacket => cases e; exact ⟨_, _, rfl, by simp⟩
  | remaining => cases e; exact ⟨s.block, _, rfl, by simp⟩
  | peek off len => cases e; exact ⟨s.block, _, rfl, by simp⟩
  | decode slice => cases e; exact ⟨s.block, _, rfl, by simp⟩
  | resolve => cases e; exact ⟨s.block, _, rfl, by simp [resolve, byteOrder]⟩
  | reserved7 => cases e; exact ⟨s.block, _, rfl, by simp⟩
  | ingest v => cases hw
  | advance n => cases hw

/-- R12, R58: what a command does to the block and what it answers depends on the block and `CAP` alone, not on the port's
own fields. -/
theorem exec_depends_on_block (i : Instr) (hw : i.WellFormed) : ∃ f : Block → Config → Block × Response,
    ∀ s, exec i s = .next ((s.withBlock (f s.block s.cfg).1).respond i (f s.block s.cfg).2) := by
  cases i with
  | receive c =>
    refine ⟨fun b cfg => if hasRoom cfg b c.length then (receiveChunk c b, .accepted) else (b, .full), fun s => ?_⟩
    cases h : hasRoom s.cfg s.block c.length with
    | true => rw [exec_receive_room c s h]; simp only [h, if_true]
    | false => rw [exec_receive_full c s h]; simp only [h]; rfl
  | currentHeader => exact ⟨fun b _ => ((currentHeader b).2, (currentHeader b).1), fun _ => rfl⟩
  | pullPacket => exact ⟨fun b _ => ((pullPacket b).2, (pullPacket b).1), fun _ => rfl⟩
  | remaining => exact ⟨fun b _ => (b, .count b.rem), fun _ => rfl⟩
  | peek off len => exact ⟨fun b _ => (b, peekBytes off len b), fun _ => rfl⟩
  | decode slice => exact ⟨fun b _ => (b, .header (decodeSlice slice)), fun _ => rfl⟩
  | resolve => exact ⟨fun b _ => (b, .order .big), fun _ => rfl⟩
  | reserved7 => exact ⟨fun b _ => (b, .illegal), fun _ => rfl⟩
  | ingest v => cases hw
  | advance n => cases hw

/-- The decoder gives a command of the port, whatever the request (R56). -/
theorem decodeRequest_wellFormed (r : Request) : (decodeRequest r).WellFormed := by
  unfold decodeRequest
  split <;> rfl

/-- A step, said once: idle, a reset, or the decoded command. -/
theorem step_cases (s t : State) (e : step s = .next t) :
    (s.inputs = [] ∧ t = s) ∨
    (∃ rest, s.inputs = .reset :: rest ∧ t = resetEvent { s with inputs := rest }) ∨
    (∃ r rest, s.inputs = .command r :: rest ∧ exec (decodeRequest r) { s with inputs := rest } = .next t) := by
  unfold step takeInput at e
  cases h : s.inputs with
  | nil => rw [h] at e; cases e; exact .inl ⟨rfl, rfl⟩
  | cons x rest =>
    rw [h] at e
    cases x with
    | reset => cases e; exact .inr (.inl ⟨rest, rfl, rfl⟩)
    | command r => exact .inr (.inr ⟨r, rest, rfl, e⟩)

end Sys2Proof.Machine
end

