-- ==== Sys2Proof/Laws/Framing.lean ====
section
/-! SUPPORT. The framing function (43_packet_extractor.md R107): its unfolding, independent of the bound it is written
with, and what a pull does to it. -/

namespace Sys2Proof.Machine

theorem frameOne_eq (bytes : List Byte) : frameOne bytes =
    match headerOf bytes with
    | none => none
    | some h => if bytes.length < totalLen h then none else some (bytes.take (totalLen h), bytes.drop (totalLen h)) := rfl

/-- A framed packet is the front of the bytes and is not empty. -/
theorem frameOne_some {bytes p rest : List Byte} (e : frameOne bytes = some (p, rest)) :
    bytes = p ++ rest ∧ rest.length < bytes.length := by
  rw [frameOne_eq] at e
  split at e
  · cases e
  · rename_i h _
    split at e
    · cases e
    · cases e
      have := totalLen_pos h
      exact ⟨(List.take_append_drop _ _).symm, by simp; omega⟩

/-- Any bound of at least the length gives the same framing. -/
theorem frameUpTo_stable (n m : Nat) (bytes : List Byte) (hn : bytes.length ≤ n) (hm : bytes.length ≤ m) :
    frameUpTo n bytes = frameUpTo m bytes := by
  induction n generalizing m bytes with
  | zero =>
    have : bytes = [] := List.length_eq_zero_iff.mp (by omega)
    subst this
    cases m <;> rfl
  | succ n ih =>
    cases m with
    | zero =>
      have : bytes = [] := List.length_eq_zero_iff.mp (by omega)
      subst this
      rfl
    | succ m =>
      simp only [frameUpTo]
      cases e : frameOne bytes with
      | none => rfl
      | some pr =>
        obtain ⟨p, rest⟩ := pr
        have hl := (frameOne_some e).2
        simp only
        rw [ih m rest (by omega) (by omega)]

/-- R107: the equation of `frame` as the rule writes it. -/
theorem frame_eq (bytes : List Byte) : frame bytes =
    match frameOne bytes with
    | none => ([], bytes)
    | some (p, rest) => (p :: (frame rest).1, (frame rest).2) := by
  unfold frame
  rw [frameUpTo_stable bytes.length (bytes.length + 1) bytes (Nat.le_refl _) (by omega)]
  simp only [frameUpTo]
  cases e : frameOne bytes with
  | none => rfl
  | some pr =>
    obtain ⟨p, rest⟩ := pr
    have hl := (frameOne_some e).2
    simp only
    rw [frameUpTo_stable bytes.length rest.length rest (by omega) (Nat.le_refl _)]

/-- A packet already whole is framed the same when bytes are appended. -/
theorem frameOne_append {bytes p rest : List Byte} (v : List Byte) (e : frameOne bytes = some (p, rest)) :
    frameOne (bytes ++ v) = some (p, rest ++ v) := by
  rw [frameOne_eq] at e ⊢
  cases hh : headerOf bytes with
  | none => rw [hh] at e; cases e
  | some h =>
    have h6 : 6 ≤ bytes.length := by rw [← headerOf_isSome, hh]; rfl
    rw [headerOf_append v h6, hh]
    rw [hh] at e
    simp only at e ⊢
    split at e
    · cases e
    · rename_i hl
      cases e
      have hl' : totalLen h ≤ bytes.length := by omega
      rw [if_neg (by simp; omega), List.take_append_of_le_length hl', List.drop_append_of_le_length hl']

/-- A pull against the framing of the live bytes: no packet framed and `NONE`, or the framed packet handed out. -/
theorem pullPacket_frames {b : Block} (hi : b.Inv) :
    (frameOne b.live = none ∧ (pullPacket b).1 = .absent ∧ (pullPacket b).2.live = b.live ∧
      (pullPacket b).2.st = if b.live.length < 6 then .exhausted else .headerReady) ∨
    ∃ p rest, frameOne b.live = some (p, rest) ∧ (pullPacket b).1 = .bytes p ∧ (pullPacket b).2.live = rest := by
  have hl := b.live_length
  rw [pullPacket_of_inv hi, frameOne_eq]
  cases hh : headerOf b.live with
  | none =>
    have : b.live.length < 6 := by
      by_contra hc
      have := (headerOf_isSome b.live).mpr (by omega)
      rw [hh] at this
      cases this
    exact .inl ⟨rfl, rfl, rfl, (if_pos this).symm⟩
  | some h =>
    have h6 : 6 ≤ b.live.length := by rw [← headerOf_isSome, hh]; rfl
    simp only [← hl]
    split
    · exact .inl ⟨rfl, rfl, rfl, by rw [if_neg (by omega)]; rfl⟩
    · exact .inr ⟨_, _, rfl, rfl, by simp [Block.live, List.drop_drop]⟩

/-- What was fed, one entry at a time. -/
theorem fedBytes_snoc (ev : List Event) (x : Event) (acc : List Byte) :
    fedBytes acc (ev ++ [x]) = fedBytes (fedBytes acc ev) [x] := by
  induction ev generalizing acc with
  | nil => rfl
  | cons y ev ih =>
    cases y with
    | reset => exact ih []
    | answered i r => cases i <;> cases r <;> exact ih _

/-- What was handed out, one entry at a time. -/
theorem handedPackets_snoc (ev : List Event) (x : Event) (acc : List (List Byte)) :
    handedPackets acc (ev ++ [x]) = handedPackets (handedPackets acc ev) [x] := by
  induction ev generalizing acc with
  | nil => rfl
  | cons y ev ih =>
    cases y with
    | reset => exact ih []
    | answered i r => cases i <;> cases r <;> exact ih _

end Sys2Proof.Machine
end

