-- ==== Sys2Proof/Laws/PerInstr.lean ====
section
/-! SUPPORT. Statements about instructions as syntax, one lemma per constructor. `PortCodec`: the request a host sends
for an instruction decodes to that instruction (30_encoding.md R56). -/

namespace Sys2Proof.Laws.PortCodec

/-- Whatever request encodes an instruction, the decoder reads the instruction from it, with every operand. -/
def Statement (i : Instr) : Prop := ∀ r, encode i = some r → decodeRequest r = i

theorem receive (chunk : List Byte) : Statement (.receive chunk) := by rintro _ ⟨⟩; rfl
theorem currentHeader : Statement .currentHeader := by rintro _ ⟨⟩; rfl
theorem pullPacket : Statement .pullPacket := by rintro _ ⟨⟩; rfl
theorem remaining : Statement .remaining := by rintro _ ⟨⟩; rfl
theorem peek (off len : Nat) : Statement (.peek off len) := by rintro _ ⟨⟩; rfl
theorem decode (slice : BitVec 48) : Statement (.decode slice) := by rintro _ ⟨⟩; rfl
theorem resolve : Statement .resolve := by rintro _ ⟨⟩; rfl
theorem reserved7 : Statement .reserved7 := by rintro _ ⟨⟩; rfl
theorem ingest (bytes : List Byte) : Statement (.ingest bytes) := by rintro _ ⟨⟩
theorem advance (n : Nat) : Statement (.advance n) := by rintro _ ⟨⟩

end Sys2Proof.Laws.PortCodec
end

