-- ==== Sys2Proof/Machine/Script.lean ====
section
/-! DEFINITION. The script syntax of 30_encoding.md R64: one command per line, and a response after an arrow. A line is
written as the list of its words; the syntax has "No semantic content" (92_eei_decisions.md D24). -/

namespace Sys2Proof.Machine

/-- One hexadecimal digit, in capitals as the spec's examples have them. -/
def hexDigit (n : Nat) : Char := "0123456789ABCDEF".toList.getD n '0'

/-- R64: "bytes in hex, two digits each". -/
def hexByte (b : Byte) : String := String.ofList [hexDigit (b.toNat / 16), hexDigit (b.toNat % 16)]

/-- The six bytes of a DECODE operand in stream order. -/
def sliceBytes (slice : BitVec 48) : List Byte := (List.range 6).map (sliceByte slice)

/-- R64: the words of a command's line, none for the internal steps, which are no commands. -/
def scriptCommand : Instr → Option (List String)
  | .receive chunk => some ("RECEIVE" :: chunk.map hexByte)
  | .currentHeader => some ["CURRENT_HEADER"]
  | .pullPacket => some ["PULL_PACKET"]
  | .remaining => some ["REMAINING"]
  | .peek off len => some ["PEEK", toString off, toString len]
  | .decode slice => some ("DECODE" :: (sliceBytes slice).map hexByte)
  | .resolve => some ["RESOLVE"]
  | .reserved7 => some ["(reserved)"]
  | .ingest _ => none
  | .advance _ => none

/-- R64: the line of an input; the reset event has a line and no opcode. -/
def scriptInput : Input → Option (List String)
  | .command r => scriptCommand (decodeRequest r)
  | .reset => some ["RESET"]

/-- R7: the names of the two byte orders. -/
def scriptOrder : ByteOrder → String
  | .big => "BIG"
  | .little => "LITTLE"

/-- R64: the fields of a header in a response. -/
def scriptHeader (h : Header) : List String :=
  ["version=" ++ toString h.version.toNat, "packet_type=" ++ toString h.packetType.toNat,
   "secondary_header_flag=" ++ toString h.secondaryHeaderFlag.toNat, "apid=" ++ toString h.apid.toNat,
   "sequence_flags=" ++ toString h.sequenceFlags.toNat, "sequence_count=" ++ toString h.sequenceCount.toNat,
   "length_field=" ++ toString h.lengthField.toNat, "endianness=" ++ scriptOrder h.endianness]

/-- R64: a response, after the arrow. -/
def scriptResponse : Response → List String
  | .accepted => ["OK"]
  | .header h => ["OK", "hdr(" ++ String.intercalate ", " (scriptHeader h) ++ ")"]
  | .bytes p => ["OK", "bytes=[" ++ String.intercalate " " (p.map hexByte) ++ "]"]
  | .count n => ["OK", "count=" ++ toString n]
  | .order o => ["OK", "order=" ++ scriptOrder o]
  | .absent => ["NONE"]
  | .illegal => ["ILLEGAL"]
  | .full => ["FULL"]

end Sys2Proof.Machine
end

