-- ==== Sys2Proof/Tests/Slice0.lean ====
section
/-! SUPPORT. Tests. Every expected value comes from spec/95_test_vectors.md (its row is named) or from the rule named;
none was pasted from a run of the model. Then a witness for the hypotheses of each statement, at the boundary values of
its clauses. -/

namespace Sys2Proof.Tests

open Sys2Proof.Machine

/-! ### Helpers -/

/-- Packet A of V-EXT. -/
def packetA : List Byte := [0x08, 0x01, 0xC0, 0x00, 0x00, 0x03, 0xDE, 0xAD, 0xBE, 0xEF]

/-- Packet B of V-EXT. -/
def packetB : List Byte := [0x08, 0x02, 0xC0, 0x01, 0x00, 0x00, 0x42]

/-- The header of packet A, V-DEC row 25. -/
def hdrA : Header := ⟨0, 0, 1, 1, 3, 0, 3, .big⟩

/-- The header of packet B, V-DEC row 26. -/
def hdrB : Header := ⟨0, 0, 1, 2, 3, 1, 0, .big⟩

/-- A state with these live bytes and nothing consumed. -/
def at0 (st : St) (hdr : Option Header) (live : List Byte) : State :=
  { State.reset with block := { stream := live, cursor := 0, st := st, hdr := hdr } }

/-- The same live bytes behind two consumed ones. -/
def at2 (st : St) (hdr : Option Header) (live : List Byte) : State :=
  { State.reset with block := { stream := 0xAA :: 0xBB :: live, cursor := 2, st := st, hdr := hdr } }

/-- The state with a finite `CAP`. -/
def capped (c : Nat) (s : State) : State := { s with cfg := ⟨some c⟩ }

/-- The state in which the host will do `inputs`. -/
def doing (inputs : List Input) (s : State) : State := { s with inputs := inputs }

/-- The next state of an outcome, as a value that can be compared. -/
def nextOf : Result → Option State
  | .next t => some t
  | .fault _ => none
  | .refused _ => none

/-- The block and the new transcript entries after one instruction. -/
def after (i : Instr) (s : State) : Option (Block × List Event) :=
  (nextOf (exec i s)).map fun t => (t.block, t.transcript.drop s.transcript.length)

/-! ### WellFormed smoke: an ill-formed term for each check -/

theorem test_ingest_is_no_command : (Instr.ingest [1]).check = some .ingestIsInternal := by decide
theorem test_advance_is_no_command : (Instr.advance 3).check = some .advanceIsInternal := by decide
theorem test_reserved_is_a_command : Instr.reserved7.check = none := by decide

/-! ### Decoding: the words written out from R56 -/

theorem test_decode_receive : decodeRequest ⟨0b000, [0x18, 0x96], 0, 0, 0⟩ = .receive [0x18, 0x96] := by decide
theorem test_decode_currentHeader : decodeRequest ⟨0b001, [], 0, 0, 0⟩ = .currentHeader := by decide
theorem test_decode_pullPacket : decodeRequest ⟨0b010, [], 0, 0, 0⟩ = .pullPacket := by decide
theorem test_decode_remaining : decodeRequest ⟨0b011, [], 0, 0, 0⟩ = .remaining := by decide
theorem test_decode_peek : decodeRequest ⟨0b100, [], 0, 6, 1⟩ = .peek 6 1 := by decide
theorem test_decode_decode : decodeRequest ⟨0b101, [], 0x1896C0000005, 0, 0⟩ = .decode 0x1896C0000005 := by decide
theorem test_decode_resolve : decodeRequest ⟨0b110, [], 0, 0, 0⟩ = .resolve := by decide
theorem test_decode_reserved7 : decodeRequest ⟨0b111, [1], 5, 6, 7⟩ = .reserved7 := by decide
theorem test_no_word_for_ingest : encode (.ingest [1]) = none := by decide
theorem test_no_word_for_advance : encode (.advance 1) = none := by decide
theorem test_no_opcode_in_no_bits : decodeTableWord 0 0 = none := by decide

/-! ### One step each -/

/-- P1 step 1: in `Empty` RECEIVE decodes nothing. -/
theorem test_receive_in_empty :
    after (.receive packetA) State.reset =
      some (⟨packetA, 0, .empty, none⟩, [.answered (.receive packetA) .accepted]) := by decide

/-- V-EXT row 5: exactly six bytes in `Exhausted`. -/
theorem test_receive_resumes :
    after (.receive [0x03]) (at0 .exhausted none [0x08, 0x01, 0xC0, 0x00, 0x00]) =
      some (⟨[0x08, 0x01, 0xC0, 0x00, 0x00, 0x03], 0, .headerReady, some hdrA⟩,
        [.answered (.receive [0x03]) .accepted]) := by decide

/-- V-EXT row 9. -/
theorem test_currentHeader_decodes :
    after .currentHeader (at0 .empty none (packetA.take 6)) =
      some (⟨packetA.take 6, 0, .headerReady, some hdrA⟩, [.answered .currentHeader (.header hdrA)]) := by decide

/-- V-EXT row 2: five bytes are no header, and `Empty` stays (D7). -/
theorem test_currentHeader_too_few :
    after .currentHeader (at0 .empty none (packetA.take 5)) =
      some (⟨packetA.take 5, 0, .empty, none⟩, [.answered .currentHeader .absent]) := by decide

/-- V-EXT row 15. -/
theorem test_pull_hands_out_one :
    after .pullPacket (at0 .empty none (packetA ++ packetB)) =
      some (⟨packetA ++ packetB, 10, .empty, none⟩, [.answered .pullPacket (.bytes packetA)]) := by decide

/-- V-EXT row 10: a partial packet keeps its header (D8). -/
theorem test_pull_partial :
    after .pullPacket (at0 .empty none (packetA.take 6)) =
      some (⟨packetA.take 6, 0, .headerReady, some hdrA⟩, [.answered .pullPacket .absent]) := by decide

/-- R72's example: `len(stream) = 17`, `cursor = 10`. -/
theorem test_remaining :
    (nextOf (exec .remaining { State.reset with block := ⟨packetA ++ packetB, 10, .empty, none⟩ })).map
      (·.transcript) = some [.answered .remaining (.count 7)] := by decide

/-- V-BUF row 4: the Length word. -/
theorem test_peek_inside :
    (after (.peek 4 2) (at0 .empty none [0x18, 0x96, 0xC0, 0x00, 0x00, 0x05, 0xAA])).map (·.2) =
      some [.answered (.peek 4 2) (.bytes [0x00, 0x05])] := by decide

/-- V-BUF row 5: the offset counts (C6). -/
theorem test_peek_past_end :
    (after (.peek 4 4) (at0 .empty none [0x18, 0x96, 0xC0, 0x00, 0x00, 0x05, 0xAA])).map (·.2) =
      some [.answered (.peek 4 4) .absent] := by decide

/-- V-DEC row 24, the mixed pattern. -/
theorem test_decode_mixed :
    (after (.decode 0xA55A9669C33C) State.reset).map (·.2) =
      some [.answered (.decode 0xA55A9669C33C) (.header ⟨5, 0, 0, 1370, 2, 5737, 49980, .big⟩)] := by decide

/-- P5 steps 5 and 6: DECODE caches nothing (V-DEC row 1 for the fields). -/
theorem test_decode_caches_nothing :
    after (.decode 0x1896C0000005) State.reset =
      some (Block.reset, [.answered (.decode 0x1896C0000005) (.header ⟨0, 1, 1, 150, 3, 0, 5, .big⟩)]) := by decide

/-- V-RES. -/
theorem test_resolve :
    after .resolve (at0 .exhausted none [0x08]) =
      some (⟨[0x08], 0, .exhausted, none⟩, [.answered .resolve (.order .big)]) := by decide

/-- V-EXT row 21. -/
theorem test_reserved :
    after .reserved7 (at0 .headerReady (some hdrA) packetA) =
      some (⟨packetA, 0, .headerReady, some hdrA⟩, [.answered .reserved7 .illegal]) := by decide

/-- V-BUF row 11. -/
theorem test_ingest :
    after (.ingest [0xC0, 0x00]) (at0 .empty none [0x18, 0x96]) =
      some (⟨[0x18, 0x96, 0xC0, 0x00], 0, .empty, none⟩, []) := by decide

/-- V-BUF row 13. -/
theorem test_advance_moves :
    (after (.advance 3) (at0 .empty none [0x18, 0x96, 0xC0, 0x00])).map (·.1.cursor) = some 3 := by decide

/-- V-BUF row 14: one byte is left and two are asked for. -/
theorem test_advance_fails :
    (nextOf (exec (.advance 2) { State.reset with block := ⟨[0x18, 0x96, 0xC0, 0x00], 3, .empty, none⟩ })).map
      (fun t => (t.block.cursor, t.stepResult)) = some (3, some .fail) := by decide

/-- R71: a chunk that would pass a finite `CAP` is refused whole. -/
theorem test_receive_full :
    after (.receive [1, 2]) (capped 3 (at0 .empty none [8, 9])) =
      some (⟨[8, 9], 0, .empty, none⟩, [.answered (.receive [1, 2]) .full]) := by decide

/-- P5 step 9: the reset event. -/
theorem test_reset_event :
    (nextOf (step (doing [.reset] (at0 .headerReady (some hdrA) packetA)))).map (·.block) = some Block.reset := by decide

/-- V-ENC row 3. -/
theorem test_encode_header :
    encodeHdr ⟨0, 1, 0, 100, 1, 5000, 9, .big⟩ = [0x10, 0x64, 0x53, 0x88, 0x00, 0x09] := by decide

/-- R38: T does not wrap (V-DEC row 19). -/
theorem test_largest_packet : totalLen ⟨0, 0, 0, 0, 0, 0, 65535, .big⟩ = 65542 := by decide

/-- R107 on the stream of P4: packet B, then three bytes of A. -/
theorem test_frame : frame (packetB ++ packetA.take 3) = ([packetB], [0x08, 0x01, 0xC0]) := by decide

/-- R64's sample lines. -/
theorem test_script_decode : scriptCommand (.decode 0x1896C0000005) =
    some ["DECODE", "18", "96", "C0", "00", "00", "05"] := by decide

theorem test_script_count : scriptResponse (.count 17) = ["OK", "count=17"] := by decide

/-! ### Witnesses for the statements' hypotheses -/

/-- The states the witnesses use keep the invariants. -/
theorem inv_empty : (at0 .empty none (packetA ++ packetB)).block.Inv :=
  ⟨by decide, by decide, by decide, by decide⟩

theorem inv_ready : (at0 .headerReady (some hdrA) packetA).block.Inv := ⟨by decide, by decide, by decide, by decide⟩

theorem inv_few : (at0 .exhausted none (packetA.take 5)).block.Inv := ⟨by decide, by decide, by decide, by decide⟩

theorem starts_packetA : StartsWithHeader packetA hdrA := ⟨_, _, _, _, _, _, _, rfl, by decide⟩

theorem starts_packetB : StartsWithHeader packetB hdrB := ⟨_, _, _, _, _, _, _, rfl, by decide⟩

theorem witness_ResetEventRestoresConstructionState :
    (doing [.reset, .reset] (at0 .headerReady (some hdrA) packetA)).inputs = .reset :: [.reset] := rfl

theorem witness_EveryStepKeepsInvariants : ∃ s t : State, s.block.Inv ∧ step s = .next t ∧ t.block ≠ s.block :=
  ⟨doing (commandsOf [.pullPacket]) (at0 .empty none (packetA ++ packetB)), _, inv_empty, rfl, by decide⟩

theorem witness_ReachableStatesKeepInvariants : Reachable State.reset := Reachable.start Config.decided []

theorem witness_EveryStepStaysWithinCapacity : ∃ s t : State, s.WithinCap ∧ s.cfg.cap = some 7 ∧ step s = .next t ∧
    t.block.rem = 7 :=
  ⟨doing (commandsOf [.receive [1]]) (capped 7 (at0 .empty none (packetA.take 6))), _,
    fun c h => by cases h; decide, rfl, rfl, by decide⟩

theorem witness_StreamAndCursorOnlyGrow : ∃ s t : State, s.NoResetNext ∧ step s = .next t ∧
    t.block.cursor = 10 :=
  ⟨doing (commandsOf [.pullPacket]) (at0 .empty none packetA), _, by unfold State.NoResetNext; decide, rfl, by decide⟩

theorem witness_OnlyOwnersWriteState :
    (∃ s t, exec (.receive [1]) s = .next t ∧ t.block.stream ≠ s.block.stream) ∧
    (∃ s t, exec .pullPacket s = .next t ∧ t.block.cursor ≠ s.block.cursor) ∧
    ∃ s t, exec .pullPacket s = .next t ∧ t.block.st ≠ s.block.st :=
  ⟨⟨State.reset, _, rfl, by decide⟩, ⟨at0 .empty none packetA, _, rfl, by decide⟩, ⟨State.reset, _, rfl, by decide⟩⟩

theorem witness_EveryByteOutsideTheAppendUnchanged :
    (∃ t, exec .pullPacket (at0 .empty none packetA) = .next t) ∧
    (∃ t, exec (.ingest [1]) (at0 .empty none packetA) = .next t ∧ t.block.readByte 10 = some 1) ∧
    (∃ t, exec (.receive [1]) (at0 .empty none packetA) = .next t ∧ t.block.readByte 10 = some 1) ∧
    hasRoom ⟨some 9⟩ (at0 .empty none packetA).block 0 = false ∧
    hasRoom ⟨some 11⟩ (at0 .empty none packetA).block 1 = true :=
  ⟨⟨_, rfl⟩, ⟨_, rfl, by decide⟩, ⟨_, rfl, by decide⟩, by decide, by decide⟩

theorem witness_PacketLengthBounds :
    (∃ h : Header, h.lengthField = 0) ∧ ∃ h : Header, h.lengthField = 65535 :=
  ⟨⟨hdrB, rfl⟩, ⟨⟨0, 0, 0, 0, 0, 0, 65535, .big⟩, rfl⟩⟩

theorem witness_AnswersGivenNeverChange : ∃ s t : State, s.transcript ≠ [] ∧ step s = .next t ∧
    t.transcript.length = 2 :=
  ⟨doing (commandsOf [.resolve]) { State.reset with transcript := [.answered .resolve (.order .big)] }, _,
    by decide, rfl, by decide⟩

theorem witness_PortCodecRoundTrip :
    (Instr.peek 6 1).WellFormed ∧ ¬ (Instr.ingest [1]).WellFormed ∧ ¬ (Instr.advance 1).WellFormed := by decide

theorem witness_StepRunsTheDecodedCommand :
    (doing (commandsOf [.resolve, .remaining]) State.reset).inputs = .command (Request.bare 6) :: [.command (Request.bare 3)] ∧
    State.reset.inputs = [] := by decide

theorem witness_TableWordRunsAsNextCommand : decodeTableWord 8 2 = some .pullPacket := by decide

theorem witness_OneResponsePerCommand : (Instr.receive [1]).WellFormed ∧ Instr.reserved7.WellFormed := by decide

/-- Each clause at its boundary: room for the last byte and for none, six and five live bytes, a whole packet and one
byte less, a PEEK to the end and one past it. -/
theorem witness_StatusConditions :
    (∃ t, exec (.receive [1]) (capped 11 (at0 .headerReady (some hdrA) packetA)) = .next t ∧
      t.transcript = [.answered (.receive [1]) .accepted]) ∧
    (∃ t, exec (.receive [1]) (capped 10 (at0 .headerReady (some hdrA) packetA)) = .next t ∧
      t.transcript = [.answered (.receive [1]) .full]) ∧
    (∃ t, exec .currentHeader (at0 .empty none (packetA.take 6)) = .next t ∧
      t.transcript = [.answered .currentHeader (.header hdrA)]) ∧
    (∃ t, exec .currentHeader (at0 .empty none (packetA.take 5)) = .next t ∧
      t.transcript = [.answered .currentHeader .absent]) ∧
    (∃ t, exec .pullPacket (at0 .headerReady (some hdrA) packetA) = .next t ∧
      t.transcript = [.answered .pullPacket (.bytes packetA)]) ∧
    (∃ t, exec .pullPacket (at0 .headerReady (some hdrA) (packetA.take 9)) = .next t ∧
      t.transcript = [.answered .pullPacket .absent]) ∧
    (∃ t, exec (.peek 9 1) (at0 .headerReady (some hdrA) packetA) = .next t ∧
      t.transcript = [.answered (.peek 9 1) (.bytes [0xEF])]) ∧
    ∃ t, exec (.peek 9 2) (at0 .headerReady (some hdrA) packetA) = .next t ∧
      t.transcript = [.answered (.peek 9 2) .absent] :=
  ⟨⟨_, rfl, by decide⟩, ⟨_, rfl, by decide⟩, ⟨_, rfl, by decide⟩, ⟨_, rfl, by decide⟩, ⟨_, rfl, by decide⟩,
    ⟨_, rfl, by decide⟩, ⟨_, rfl, by decide⟩, ⟨_, rfl, by decide⟩⟩

/-- And the states of it keep the invariants. -/
theorem witness_StatusConditions_inv :
    (at0 .empty none (packetA.take 6)).block.Inv ∧ (at0 .empty none (packetA.take 5)).block.Inv ∧
    (at0 .headerReady (some hdrA) (packetA.take 9)).block.Inv :=
  ⟨⟨by decide, by decide, by decide, by decide⟩, ⟨by decide, by decide, by decide, by decide⟩,
    ⟨by decide, by decide, by decide, by decide⟩⟩

theorem witness_IngestAppends : State.reset.block.cursor ≤ State.reset.block.stream.length := by decide

/-- Room to the last byte, and one byte too many. -/
theorem witness_ReceiveRespectsCapacity :
    (at0 .empty none packetA).block.rem + [(1 : Byte)].length ≤ 11 ∧
    10 < (at0 .empty none packetA).block.rem + [(1 : Byte)].length := by decide

/-- `n = rem()` and `n = rem() + 1`. -/
theorem witness_AdvanceMovesOrFails :
    10 ≤ (at0 .empty none packetA).block.stream.length - (at0 .empty none packetA).block.cursor ∧
    (at0 .empty none packetA).block.stream.length - (at0 .empty none packetA).block.cursor < 11 := by decide

/-- `PEEK` to the very end, and one past it. -/
theorem witness_PeekReadsWithoutConsuming :
    9 + 1 ≤ (at2 .empty none packetA).block.rem ∧ (at2 .empty none packetA).block.rem < 9 + 2 := by decide

theorem witness_HeaderCodecRoundTrip : hdrA.endianness = .big ∧ (packetA.take 6).length = 6 := by decide

theorem witness_FieldsDependOnOwnBitsOnly :
    (0xE0 : Byte) &&& 0xE0 = 0xFF &&& 0xE0 ∧ (0x10 : Byte) &&& 0x10 = 0xFF &&& 0x10 ∧
    (0x08 : Byte) &&& 0x08 = 0xFF &&& 0x08 ∧ (0x07 : Byte) &&& 0x07 = 0xFF &&& 0x07 ∧
    (0xC0 : Byte) &&& 0xC0 = 0xFF &&& 0xC0 ∧ (0x3F : Byte) &&& 0x3F = 0xFF &&& 0x3F := by decide

theorem witness_ReturnedHeadersCarryTheByteOrder :
    ∃ t, (at0 .headerReady (some hdrA) packetA).block.Inv ∧
      exec .currentHeader (at0 .headerReady (some hdrA) packetA) = .next t ∧
      t.transcript = [] ++ [.answered .currentHeader (.header hdrA)] :=
  ⟨_, inv_ready, rfl, by decide⟩

/-- Not `Exhausted`; `Exhausted` with five bytes after the append; `Exhausted` with exactly six; and a finite `CAP` with
room to the last byte. -/
theorem witness_ReceiveAppendsAndResumes :
    (at0 .headerReady (some hdrA) packetA).block.st ≠ .exhausted ∧
    (at0 .exhausted none (packetA.take 4 ++ [0x00])).block.rem < 6 ∧
    StartsWithHeader (at0 .exhausted none (packetA.take 5 ++ [0x03])).block.live hdrA ∧
    ∀ k, (capped 6 (at0 .exhausted none (packetA.take 5))).cfg.cap = some k →
      (capped 6 (at0 .exhausted none (packetA.take 5))).block.rem + [(0x03 : Byte)].length ≤ k :=
  ⟨by decide, by decide, ⟨_, _, _, _, _, _, _, rfl, by decide⟩, fun k h => by cases h; decide⟩

/-- A cached header; exactly six bytes; exactly five. -/
theorem witness_CurrentHeaderPeeks :
    ((at0 .headerReady (some hdrA) packetA).block.st = .headerReady ∧
      (at0 .headerReady (some hdrA) packetA).block.hdr = some hdrA) ∧
    ((at0 .empty none (packetA.take 6)).block.st ≠ .headerReady ∧
      StartsWithHeader (at0 .empty none (packetA.take 6)).block.live hdrA) ∧
    (at0 .exhausted none (packetA.take 5)).block.st ≠ .headerReady ∧
      (at0 .exhausted none (packetA.take 5)).block.rem < 6 :=
  ⟨⟨rfl, rfl⟩, ⟨by decide, ⟨_, _, _, _, _, _, _, rfl, by decide⟩⟩, by decide, by decide⟩

/-- Five bytes; a header and one byte too few; exactly the packet. -/
theorem witness_PullPacketHandsOutOnePacket :
    ((at0 .empty none (packetA.take 5)).block.st ≠ .headerReady ∧ (at0 .empty none (packetA.take 5)).block.rem < 6) ∧
    ((at0 .empty none (packetA.take 9)).block.st ≠ .headerReady ∧
      StartsWithHeader (at0 .empty none (packetA.take 9)).block.live hdrA ∧
      (at0 .empty none (packetA.take 9)).block.rem < 6 + hdrA.lengthField.toNat + 1) ∧
    (at0 .headerReady (some hdrA) packetA).block.hdr = some hdrA ∧
      6 + hdrA.lengthField.toNat + 1 ≤ (at0 .headerReady (some hdrA) packetA).block.rem :=
  ⟨⟨by decide, by decide⟩, ⟨by decide, ⟨_, _, _, _, _, _, _, rfl, by decide⟩, by decide⟩, rfl, by decide⟩

theorem witness_CurrentHeaderIsIdempotent : ∃ s t u v : State, s.block.Inv ∧ exec .currentHeader s = .next t ∧
    t.transcript = s.transcript ++ [.answered .currentHeader (.header hdrA)] ∧
    execAll ([[1], []].map .receive) t = .next u ∧ exec .currentHeader u = .next v :=
  ⟨at0 .empty none (packetA ++ packetB), _, _, _, inv_empty, rfl, by decide, rfl, rfl⟩

theorem witness_PullConsumesExactlyOnePacket : ∃ s t : State, s.block.Inv ∧ exec .pullPacket s = .next t :=
  ⟨_, _, inv_empty, rfl⟩

theorem witness_TransitionTable : ∃ t : State, Instr.pullPacket.WellFormed ∧
    (at0 .empty none (packetA ++ packetB)).block.Inv ∧
    (∀ c, Instr.pullPacket = .receive c → hasRoom Config.decided Block.reset c.length = true) ∧
    (∀ h, StartsWithHeader (at0 .empty none (packetA ++ packetB)).block.live h → 10 = totalLen h) ∧
    exec .pullPacket (at0 .empty none (packetA ++ packetB)) = .next t ∧
    tableSt .empty .pullPacket 17 10 = .empty ∧ tableSt .empty .pullPacket 9 10 = .headerReady ∧
    tableSt .empty .pullPacket 5 10 = .exhausted := by
  refine ⟨_, by decide, inv_empty, fun _ _ => rfl, ?_, rfl, by decide, by decide, by decide⟩
  rintro h ⟨b0, b1, b2, b3, b4, b5, rest, e, rfl⟩
  cases e
  decide

/-- The prefix has five bytes, and six, and nine. -/
theorem witness_ExhaustionAndResumption :
    ((at0 .exhausted none (packetA.take 5)).block.Inv ∧ packetA.drop 5 ≠ []) ∧
    ((at0 .empty none (packetA.take 6)).block.Inv ∧ packetA.drop 6 ≠ []) ∧
    ((at0 .headerReady (some hdrA) (packetA.take 9)).block.Inv ∧ packetA.drop 9 ≠ []) ∧
    (at0 .empty none (packetA.take 6)).cfg.cap = none ∧
    StartsWithHeader (packetA.take 5 ++ packetA.drop 5) hdrA ∧ StartsWithHeader (packetA.take 9 ++ packetA.drop 9) hdrA ∧
    packetA.length = 6 + hdrA.lengthField.toNat + 1 :=
  ⟨⟨inv_few, by decide⟩, ⟨witness_StatusConditions_inv.1, by decide⟩, ⟨witness_StatusConditions_inv.2.2, by decide⟩, rfl,
    starts_packetA, starts_packetA, by decide⟩

theorem witness_ChunkingDoesNotMatter : ∃ s t u : State, s.block.st = .exhausted ∧ s.cfg.cap = none ∧
    execAll [.receive [0x03], .receive [0xDE]] s = .next t ∧ exec (.receive ([0x03] ++ [0xDE])) s = .next u :=
  ⟨at0 .exhausted none (packetA.take 5), _, _, rfl, rfl, rfl, rfl⟩

theorem witness_BytewiseFeedingIsTheSame : (at0 .exhausted none (packetA.take 5)).cfg.cap = none ∧
    (at0 .exhausted none (packetA.take 5)).block.Inv := ⟨rfl, inv_few⟩

theorem witness_AnswersFromLiveBytes : ∃ s t : State, s.block.Inv ∧ exec (.receive [1]) s = .next t ∧
    t.transcript = s.transcript ++ [.answered (.receive [1]) .accepted] :=
  ⟨_, _, inv_ready, rfl, by decide⟩

/-- Two states with the same live bytes, but another cursor, another state and another cache. -/
theorem witness_ResponsesRevealOnlyLiveBytes :
    (at0 .headerReady (some hdrA) packetA).block.Inv ∧ (at2 .empty none packetA).block.Inv ∧
    (at0 .headerReady (some hdrA) packetA).cfg = (at2 .empty none packetA).cfg ∧
    (at0 .headerReady (some hdrA) packetA).block.live = (at2 .empty none packetA).block.live ∧
    ∀ i ∈ [Instr.pullPacket, .receive [1], .remaining], i.WellFormed :=
  ⟨inv_ready, ⟨by decide, by decide, by decide, by decide⟩, rfl, by decide, by decide⟩

theorem witness_DrainHandsOutTheFramedPackets : (at0 .empty none (packetA ++ packetB)).block.Inv ∧
    (frame (at0 .empty none (packetA ++ packetB)).block.live).1 = [packetA, packetB] := ⟨inv_empty, by decide⟩

/-- A state with an account that is not empty: A fed and pulled, one byte more fed. -/
theorem witness_EveryStepKeepsTheAccount : ∃ s t : State, s.block.cursor ≤ s.block.stream.length ∧ s.Accounted ∧
    s.block.cursor = 10 ∧ step s = .next t :=
  ⟨{ State.reset with
      block := ⟨packetA ++ [8], 10, .empty, none⟩
      transcript := [.answered (.receive packetA) .accepted, .answered .pullPacket (.bytes packetA),
        .answered (.receive [8]) .accepted]
      inputs := commandsOf [.pullPacket] }, _, by decide, ⟨by decide, by decide⟩, rfl, rfl⟩

theorem witness_EveryFedByteOnceAndInOrder : Reachable (doing [] (State.start Config.decided [])) :=
  Reachable.start Config.decided []

theorem witness_TwoPacketScenario :
    StartsWithHeader packetA hdrA ∧ hdrA.lengthField = 3 ∧ packetA.length = 10 ∧
    StartsWithHeader packetB hdrB ∧ hdrB.lengthField = 0 ∧ packetB.length = 7 :=
  ⟨starts_packetA, rfl, rfl, starts_packetB, rfl, rfl⟩

theorem witness_NonOkAnswersArePrecise : ∃ s t : State, exec .pullPacket s = .next t ∧
    t.transcript = s.transcript ++ [.answered .pullPacket .absent] ∧ Response.absent.status ≠ .ok :=
  ⟨at0 .empty none (packetA.take 9), _, rfl, by decide, by decide⟩

theorem witness_RetryWithoutFeedingNeverHelps : ∃ s t : State, exec .pullPacket s = .next t ∧
    t.transcript = s.transcript ++ [.answered .pullPacket .absent] :=
  ⟨at0 .empty none (packetA.take 5), _, rfl, by decide⟩

/-- `CAP` = 9 and a packet of ten bytes. -/
theorem witness_SmallCapacityWedgesUntilReset : ∃ s t : State, s.Wedged ∧ s.NoResetNext ∧ step s = .next t :=
  ⟨doing (commandsOf [.receive [0xEF]]) (capped 9 (at0 .headerReady (some hdrA) (packetA.take 9))), _,
    ⟨⟨by decide, by decide, by decide, by decide⟩, fun c h => by cases h; decide, hdrA, rfl, 9, rfl, by decide⟩,
    by unfold State.NoResetNext; decide, rfl⟩

theorem witness_LargeCapacityNeverWedges : ∀ k, (capped 65542 State.reset).cfg.cap = some k → 65542 ≤ k := by
  intro k h
  cases h
  decide

theorem witness_CanonicalRunHandsOutTheFramedInput :
    (∀ i ∈ [Instr.receive packetA, .currentHeader, .pullPacket, .receive packetB], i.WellFormed) ∧
    (frame (chunksOf [.receive packetA, .currentHeader, .pullPacket, .receive packetB])).1.length < 3 := by decide

end Sys2Proof.Tests
end

/-! PROOFS. 30_encoding.md: the opcode map (R56) and the reserved opcode (R60). -/

namespace Sys2Proof.Machine

/-- R60: `op` = 7 is the reserved opcode, whatever the other fields of the request hold (R54). -/
theorem decodeRequest_op_seven (chunk : List Byte) (slice : BitVec 48) (off len : Nat) :
    decodeRequest ⟨7, chunk, slice, off, len⟩ = .reserved7 := rfl

/-- R56, D15: INGEST is kept from the host, since what a request decodes to is well formed. -/
theorem decodeRequest_ne_ingest (r : Request) (v : List Byte) : decodeRequest r ≠ .ingest v := by
  intro e
  have hw : (Instr.ingest v).WellFormed := e ▸ decodeRequest_wellFormed r
  cases hw

/-- R56: "`advance` is kept from the host", for the same reason. -/
theorem decodeRequest_ne_advance (r : Request) (n : Nat) : decodeRequest r ≠ .advance n := by
  intro e
  have hw : (Instr.advance n).WellFormed := e ▸ decodeRequest_wellFormed r
  cases hw

/-- A command that only answers is read-only. -/
theorem block_of_only_responds {i : Instr} {r : Response} {s t : State}
    (responds : exec i s = .next (s.respond i r)) (e : exec i s = .next t) : t.block = s.block := by
  cases responds.symm.trans e
  exact State.respond_block i r s

/-- Settles O13. The map is read off `decodeRequest` row by row; no request is an internal step because every request
decodes to a well-formed command; the four extra commands only answer. -/
theorem opcodeSelectsOperation : Obligations.OpcodeSelectsOperation := by
  refine ⟨fun chunk slice off len => ?opcodeMap, fun r => ?noInternalStep, fun s t off len slice => ?readOnly⟩
  case opcodeMap => exact ⟨rfl, rfl, rfl, rfl, rfl, rfl, rfl, decodeRequest_op_seven chunk slice off len⟩
  case noInternalStep => exact ⟨decodeRequest_ne_ingest r, decodeRequest_ne_advance r⟩
  case readOnly =>
    rintro (remaining | peek | decode | resolve)
    · exact block_of_only_responds (exec_remaining s) remaining
    · exact block_of_only_responds (exec_peek off len s) peek
    · exact block_of_only_responds (exec_decode slice s) decode
    · exact block_of_only_responds (exec_resolve s) resolve

/-- Settles O21. The reserved opcode only answers `ILLEGAL` (`exec_reserved7`), whose port fields are the blank ones
beside the status code 2 (R57, R58), and `op` = 7 selects it whatever the operands. -/
theorem reservedOpcodeDoesNothing : Obligations.ReservedOpcodeDoesNothing :=
  have illegal_port : Response.illegal.port = { PortResponse.blank .ok with status := 2 } := rfl
  ⟨exec_reserved7, illegal_port, decodeRequest_op_seven⟩

end Sys2Proof.Machine

/-! PROOFS. 40_byte_ingestion_buffer.md: REMAINING (R72) and PEEK (R74), the two reads of the live bytes. -/

namespace Sys2Proof.Machine

/-- Settles O24. REMAINING only answers (`exec_remaining`), and the count it answers is `rem()` (R8). -/
theorem remainingCountsLiveBytes : Obligations.RemainingCountsLiveBytes :=
  have rem_eq (b : Block) : b.rem = b.stream.length - b.cursor := rfl
  fun s => rem_eq s.block ▸ exec_remaining s

/-- The bytes of a read are the stored bytes, in order from its address (R8). -/
theorem memRead_getElem? {n k : Nat} (h : k < n) (m : List Byte) (a : Nat) : (memRead m a n)[k]? = m[a + k]? := by
  rw [memRead_eq_take_drop, List.getElem?_take_of_lt h, List.getElem?_drop]

/-- A read that stays among the live bytes is not cut short at the end of the stream. -/
theorem memRead_offset_length {b : Block} {off len : Nat} (h : off + len ≤ b.rem) :
    (memRead b.stream (offsetAddr b off) len).length = len := by
  rw [memRead_offset, List.length_take, List.length_drop, Block.live_length]
  omega

/-- R74, the bytes are there: PEEK answers the bytes read at the cursor plus `off`. -/
theorem peekBytes_present {b : Block} {off len : Nat} (h : off + len ≤ b.rem) :
    peekBytes off len b = .bytes (memRead b.stream (offsetAddr b off) len) := if_neg (Nat.not_lt.mpr h)

/-- R74, D12: too few bytes are left, and PEEK answers `NONE`. -/
theorem peekBytes_absent {b : Block} {off len : Nat} (h : b.rem < off + len) : peekBytes off len b = .absent := if_pos h

/-- Settles O26. PEEK only answers (`exec_peek`). With `off + len` live bytes the answer is the read at the cursor plus
`off`, which has all `len` bytes, each the stored one; with fewer it is `NONE`. -/
theorem peekReadsWithoutConsuming : Obligations.PeekReadsWithoutConsuming := by
  refine fun off len s => ⟨fun enough => ?present, fun tooFew => ?absent⟩
  case present =>
    have answer := exec_peek off len s
    rw [peekBytes_present enough] at answer
    exact ⟨memRead s.block.stream (offsetAddr s.block off) len, memRead_offset_length enough,
      fun _ hk => memRead_getElem? hk _ _, answer⟩
  case absent =>
    have answer := exec_peek off len s
    rwa [peekBytes_absent tooFew] at answer

end Sys2Proof.Machine

/-! PROOFS. 41_header_decoder.md: DECODE (R80), the six bytes of its operand (R54) and its fields on natural numbers
(R52). -/

namespace Sys2Proof.Machine

/-- R54: the bit numbering of the operand's bytes, byte 0 at the top. -/
theorem getElem_sliceByte (slice : BitVec 48) (k : Nat) {i : Nat} (hi : i < 8) :
    (sliceByte slice k)[i] = slice.getLsbD (40 - 8 * k + i) := by
  rw [sliceByte, BitVec.getElem_setWidth, BitVec.getLsbD_ushiftRight]

/-- R51, R54: the operand made of six bytes has these bytes, in stream order: in the eight bits of byte `k` only the
`k`-th byte of the disjunction has bits. -/
theorem sliceBytes_headerWord (b0 b1 b2 b3 b4 b5 : Byte) :
    sliceBytes (headerWord b0 b1 b2 b3 b4 b5) = [b0, b1, b2, b3, b4, b5] := by
  change [_, _, _, _, _, _] = _
  congr 6 <;>
  · ext i hi
    simp only [getElem_sliceByte, headerWord, BitVec.getLsbD_or, BitVec.getLsbD_shiftLeft, BitVec.getLsbD_setWidth]
    grind

/-- R80: "`decode_hdr(slice as six bytes)`". -/
theorem decodeHdrSeq_sliceBytes (slice : BitVec 48) : decodeHdrSeq (sliceBytes slice) = some (decodeSlice slice) := rfl

theorem decodeSlice_headerWord (b0 b1 b2 b3 b4 b5 : Byte) :
    decodeSlice (headerWord b0 b1 b2 b3 b4 b5) = decodeHdr b0 b1 b2 b3 b4 b5 := by
  apply Option.some.inj
  rw [← decodeHdrSeq_sliceBytes, sliceBytes_headerWord, decodeHdrSeq]

/-- R52: a field at the top of a byte is the byte shifted down, and its width holds all that is left. -/
theorem topBits_toNat (b : Byte) {k w : Nat} (h : k + w = 8) : ((b >>> k).setWidth w).toNat = b.toNat >>> k := by
  have fits : b.toNat >>> k < 2 ^ (8 - k) := BitVec.toNat_ushiftRight_lt b k (by omega)
  rw [Nat.sub_eq_of_eq_add' h.symm] at fits
  rw [BitVec.toNat_setWidth, BitVec.toNat_ushiftRight, Nat.mod_eq_of_lt fits]

/-- R52: a one-bit field is the byte shifted down and masked. -/
theorem flagBit_toNat (b : Byte) (k : Nat) : (((b >>> k) &&& 1).setWidth 1).toNat = (b.toNat >>> k) &&& 1 := by
  have fits : (b.toNat >>> k) &&& 1 < 2 ^ 1 := Nat.and_lt_two_pow _ (by decide)
  rw [BitVec.toNat_setWidth, BitVec.toNat_and, BitVec.toNat_ushiftRight]
  exact Nat.mod_eq_of_lt fits

/-- R7: `be16` on natural numbers, with the shift and the disjunction of R80. -/
theorem be16_toNat (hi lo : Byte) : (be16 hi lo).toNat = hi.toNat <<< 8 ||| lo.toNat := by
  rw [be16, ← BitVec.setWidth_append_eq_shiftLeft_setWidth_or, BitVec.setWidth_eq, BitVec.toNat_append]

/-- R52: a field over two bytes, of whose first one a mask keeps the low `k` bits, loses nothing when it is cut to
`k + 8` bits. -/
theorem be16_masked_toNat (hi lo mask : Byte) {k : Nat} (hm : mask.toNat < 2 ^ k) :
    ((be16 (hi &&& mask) lo).setWidth (k + 8)).toNat = (hi.toNat &&& mask.toNat) <<< 8 ||| lo.toNat := by
  have high_fits : (hi.toNat &&& mask.toNat) <<< 8 < 2 ^ (k + 8) := by
    rw [Nat.shiftLeft_eq, Nat.pow_add]
    exact Nat.mul_lt_mul_of_pos_right (Nat.and_lt_two_pow _ hm) (by decide)
  have low_fits : lo.toNat < 2 ^ (k + 8) := BitVec.toNat_lt_twoPow_of_le (Nat.le_add_left 8 k)
  rw [BitVec.toNat_setWidth, be16_toNat, BitVec.toNat_and, Nat.mod_eq_of_lt (Nat.or_lt_two_pow high_fits low_fits)]

/-- Settles O28. DECODE only answers (`exec_decode`), and what it answers is the header of the six bytes its operand was
made of; each field of it is one of the four forms of R52, read as a natural number. -/
theorem decodeShiftsAndMasks : Obligations.DecodeShiftsAndMasks := by
  intro b0 b1 b2 b3 b4 b5 s
  refine ⟨decodeHdr b0 b1 b2 b3 b4 b5, ?answer, ?version, ?packetType, ?secondaryHeaderFlag, ?apid, ?sequenceFlags,
    ?sequenceCount, ?lengthField, decodeHdr_endianness b0 b1 b2 b3 b4 b5⟩
  case answer => exact decodeSlice_headerWord b0 b1 b2 b3 b4 b5 ▸ exec_decode _ s
  case version => exact topBits_toNat b0 rfl
  case packetType => exact flagBit_toNat b0 4
  case secondaryHeaderFlag => exact flagBit_toNat b0 3
  case apid => exact be16_masked_toNat b0 b1 0x07 (k := 3) (by decide)
  case sequenceFlags => exact topBits_toNat b2 rfl
  case sequenceCount => exact be16_masked_toNat b2 b3 0x3F (k := 6) (by decide)
  case lengthField => exact be16_toNat b4 b5

end Sys2Proof.Machine

/-! PROOFS. 42_endianness_resolver.md: RESOLVE (R90). -/

namespace Sys2Proof.Machine

/-- Settles O34. RESOLVE only answers (`exec_resolve`), and its answer is the constant, which reads nothing of the state. -/
theorem resolveAnswersBig : Obligations.ResolveAnswersBig := exec_resolve

end Sys2Proof.Machine

/-! PROOFS. 20_memory.md: the total packet length (R38). -/

namespace Sys2Proof.Machine

/-- R38: the packet is the six bytes of its header and its data field. -/
theorem totalLen_eq_header_add_data (h : Header) : totalLen h = 6 + dataLen h := rfl

/-- R96 with the two constants joined. -/
theorem totalLen_eq_add_seven (h : Header) : totalLen h = h.lengthField.toNat + 7 := by rw [totalLen_eq]; omega

/-- R38: the data field has a byte even with `length_field` 0, and its length does not wrap with 65535. -/
theorem dataLen_bounds (h : Header) : 1 ≤ dataLen h ∧ dataLen h ≤ 65536 :=
  ⟨Nat.le_add_left 1 _, h.lengthField.isLt⟩

/-- Settles O11. The bounds are those of the 16-bit field (`totalLen_min`, `totalLen_max`), met at its two end values. -/
theorem packetLengthBounds : Obligations.PacketLengthBounds := by
  refine ⟨fun h => ⟨totalLen_eq_add_seven h, totalLen_min h, totalLen_max h, totalLen_eq_header_add_data h,
    dataLen_bounds h⟩, fun h shortest => ?_, fun h longest => ?_⟩
  · rw [totalLen_eq_add_seven, shortest]; rfl
  · rw [totalLen_eq_add_seven, longest]; rfl

end Sys2Proof.Machine

/-! PROOFS. 43_packet_extractor.md: which command writes which piece of state (R25, R95). -/

namespace Sys2Proof.Machine

/-- What an instruction, an internal step too, leaves in the block, said once: the five that can write it, each with its
own operation, and the block as it was after any other. -/
theorem exec_block_cases {i : Instr} {s t : State} (e : exec i s = .next t) :
    (∃ c, i = .receive c ∧ t.block = receiveChunk c s.block) ∨
    (i = .currentHeader ∧ t.block = (currentHeader s.block).2) ∨
    (i = .pullPacket ∧ t.block = (pullPacket s.block).2) ∨
    (∃ v, i = .ingest v ∧ t.block = ingest v s.block) ∨
    (∃ n, i = .advance n ∧ t.block = (advance n s.block).2) ∨
    t.block = s.block := by
  cases i with
  | receive c =>
    cases room : hasRoom s.cfg s.block c.length with
    | true => rw [exec_receive_room c s room] at e; cases e; exact .inl ⟨c, rfl, rfl⟩
    | false => rw [exec_receive_full c s room] at e; cases e; simp
  | _ => cases e; simp

/-- R73: ADVANCE writes the cursor only. -/
theorem advance_frame (n : Nat) (b : Block) :
    (advance n b).2.stream = b.stream ∧ (advance n b).2.st = b.st ∧ (advance n b).2.hdr = b.hdr := by
  rcases advance_spec n b with ⟨-, e⟩ | ⟨-, e⟩ <;> rw [e] <;> exact ⟨rfl, rfl, rfl⟩

/-- Settles O9. Each of the five writers owns what it changes, by the frame of its operation; nothing else changes the
block. -/
theorem onlyOwnersWriteState : Obligations.OnlyOwnersWriteState := by
  intro i s t e
  rcases exec_block_cases e with
    ⟨c, rfl, receives⟩ | ⟨rfl, peeks⟩ | ⟨rfl, pulls⟩ | ⟨v, rfl, ingests⟩ | ⟨n, rfl, advances⟩ | onlyAnswers
  · simp [receives]
  · simp [peeks, currentHeader_frame]
  · simp [pulls, pullPacket_frame]
  · simp [ingests]
  · simp [advances, advance_frame]
  · simp [onlyAnswers]

end Sys2Proof.Machine

/-! PROOFS. 43_packet_extractor.md: RECEIVE (R98). -/

namespace Sys2Proof.Machine

/-- R70 as the record the rule writes. -/
theorem ingest_eq (v : List Byte) (b : Block) : ingest v b = { b with stream := b.stream ++ v } := by
  rw [ingest, appendAddr, memWrite_at_end]

/-- R98: only `Exhausted` re-attempts the decode. -/
theorem receiveChunk_of_ne_exhausted {b : Block} (hs : b.st ≠ .exhausted) (c : List Byte) :
    receiveChunk c b = ingest c b := by
  rcases receiveChunk_cases c b with ⟨-, e⟩ | ⟨st, -, -⟩ | ⟨h, st, -, -⟩
  · exact e
  · exact absurd st hs
  · exact absurd st hs

/-- R98: in `Exhausted` the header at the cursor, if there is one after the append, is cached. -/
theorem receiveChunk_of_exhausted {b : Block} (hs : b.st = .exhausted) (c : List Byte) :
    receiveChunk c b = ((headerOf (ingest c b).live).map (cacheHeader · (ingest c b))).getD (ingest c b) := by
  rcases receiveChunk_cases c b with ⟨st, -⟩ | ⟨-, hh, e⟩ | ⟨h, -, hh, e⟩
  · exact absurd hs st
  · rw [e, hh]; rfl
  · rw [e, hh]; rfl

/-- Too few live bytes for a header. -/
theorem headerOf_live_none {b : Block} (few : b.rem < 6) : headerOf b.live = none :=
  headerOf_none (b.live_length ▸ few)

/-- R71, R98: a RECEIVE there is room for answers `OK` and leaves what `receiveChunk` leaves. -/
theorem exec_receive_of_fits {c : List Byte} {s : State} {b : Block}
    (fits : ∀ k, s.cfg.cap = some k → s.block.rem + c.length ≤ k) (hb : receiveChunk c s.block = b) :
    exec (.receive c) s =
      .next { s with block := b, transcript := s.transcript ++ [.answered (.receive c) .accepted] } := by
  rw [exec_receive_room c s ((hasRoom_iff _ _ _).mpr fits), hb]
  rfl

/-- Settles O36. `receiveChunk` appends, and decodes in `Exhausted` alone, where the grown live bytes decide: no header
with fewer than six, the one they start with otherwise. -/
theorem receiveAppendsAndResumes : Obligations.ReceiveAppendsAndResumes := by
  intro c s fits grown answered
  have grown_eq : ingest c s.block = grown := ingest_eq c s.block
  refine ⟨fun other => ?_, fun exhausted few => ?_, fun exhausted h starts => ?_⟩ <;>
    apply exec_receive_of_fits fits
  · rw [receiveChunk_of_ne_exhausted other, grown_eq]
  · rw [receiveChunk_of_exhausted exhausted, grown_eq, headerOf_live_none few]; rfl
  · rw [receiveChunk_of_exhausted exhausted, grown_eq, (startsWithHeader_iff _ _).mp starts]; rfl

end Sys2Proof.Machine

/-! PROOFS. 43_packet_extractor.md: CURRENT_HEADER (R99) and PULL_PACKET (R101). Both first ask for a header
(`ensureHeader`); its three answers, and then what each command makes of them. -/

namespace Sys2Proof.Machine

/-- A header at the front of the live bytes is decoded and cached, unless one is cached already. -/
theorem ensureHeader_of_starts {b : Block} {h : Header} (hs : b.st ≠ .headerReady) (starts : StartsWithHeader b.live h) :
    ensureHeader b = some (h, cacheHeader h b) := by
  rw [ensureHeader_decodes hs, (startsWithHeader_iff _ _).mp starts]
  rfl

theorem ensureHeader_of_few {b : Block} (hs : b.st ≠ .headerReady) (few : b.rem < 6) : ensureHeader b = none := by
  rw [ensureHeader_decodes hs, headerOf_live_none few]
  rfl

/-- Caching the header that is cached already changes nothing. -/
theorem cacheHeader_of_cached {b : Block} {h : Header} (hs : b.st = .headerReady) (hh : b.hdr = some h) :
    cacheHeader h b = b := by
  rw [cacheHeader, ← hs, ← hh]

/-- R101: with a header, cached or at the cursor, `ensureHeader` answers it and leaves it cached. -/
theorem ensureHeader_of_header {b : Block} {h : Header}
    (header : (b.st = .headerReady ∧ b.hdr = some h) ∨ (b.st ≠ .headerReady ∧ StartsWithHeader b.live h)) :
    ensureHeader b = some (h, cacheHeader h b) := by
  rcases header with ⟨ready, cached⟩ | ⟨other, starts⟩
  · rw [cacheHeader_of_cached ready cached, ensureHeader_cached ready cached]
  · exact ensureHeader_of_starts other starts

/-- R99: CURRENT_HEADER answers the header it finds. -/
theorem exec_currentHeader_of_some {s : State} {h : Header} {b : Block} (e : ensureHeader s.block = some (h, b)) :
    exec .currentHeader s =
      .next { s with block := b, transcript := s.transcript ++ [.answered .currentHeader (.header h)] } := by
  rw [exec_currentHeader, currentHeader, e]
  rfl

/-- R99: CURRENT_HEADER answers `NONE` where it finds none, and leaves the state as it was (D7). -/
theorem exec_currentHeader_of_none {s : State} (e : ensureHeader s.block = none) :
    exec .currentHeader s = .next { s with transcript := s.transcript ++ [.answered .currentHeader .absent] } := by
  rw [exec_currentHeader, currentHeader, e]
  rfl

/-- Settles O37. The three clauses are the three answers of `ensureHeader`: cached, decoded, none. -/
theorem currentHeaderPeeks : Obligations.CurrentHeaderPeeks := by
  refine fun s => ⟨fun h ready cached => ?_, fun h other starts => ?_, fun other few => ?_⟩
  · exact exec_currentHeader_of_some (ensureHeader_cached ready cached)
  · exact exec_currentHeader_of_some (ensureHeader_of_starts other starts)
  · exact exec_currentHeader_of_none (ensureHeader_of_few other few)

/-- R101 through its answer: what PULL_PACKET does to the whole state. -/
theorem exec_pullPacket_of_eq {s : State} {r : Response} {b : Block} (e : pullPacket s.block = (r, b)) :
    exec .pullPacket s =
      .next { s with block := b, transcript := s.transcript ++ [.answered .pullPacket r] } := by
  rw [exec_pullPacket, e]
  rfl

/-- R101: no header, and the state becomes `Exhausted`. -/
theorem pullPacket_of_none {b : Block} (e : ensureHeader b = none) :
    pullPacket b = (.absent, { b with st := .exhausted }) := by
  rw [pullPacket, e]

/-- R101, D8: a header and only part of its packet; the header stays cached. -/
theorem pullPacket_of_partial {b b1 : Block} {h : Header} (e : ensureHeader b = some (h, b1)) (hl : b.rem < totalLen h) :
    pullPacket b = (.absent, b1) := by
  rcases pullPacket_cases b with ⟨e1, -⟩ | ⟨x, b2, e1, -, answer⟩ | ⟨x, b2, e1, whole, -⟩ <;> cases e.symm.trans e1
  · exact answer
  · exact absurd hl (Nat.not_lt.mpr whole)

/-- R101: the whole packet is there and is handed out. -/
theorem pullPacket_of_whole {b b1 : Block} {h : Header} (e : ensureHeader b = some (h, b1)) (hl : totalLen h ≤ b.rem) :
    pullPacket b = (.bytes (b.live.take (totalLen h)),
      { stream := b.stream, cursor := b.cursor + totalLen h, st := .empty, hdr := none }) := by
  rcases pullPacket_cases b with ⟨e1, -⟩ | ⟨x, b2, e1, short, -⟩ | ⟨x, b2, e1, -, answer⟩ <;> cases e.symm.trans e1
  · exact absurd short (Nat.not_lt.mpr hl)
  · exact answer

/-- Settles O38. First the header, then the length (R125): no header, a partial packet, a whole packet. The bytes
handed out are as many as asked for, since the live bytes are at least that many. -/
theorem pullPacketHandsOutOnePacket : Obligations.PullPacketHandsOutOnePacket := by
  refine fun s => ⟨fun other few => ?_, fun h header => ?_⟩
  · exact exec_pullPacket_of_eq (pullPacket_of_none (ensureHeader_of_few other few))
  · have found := ensureHeader_of_header header
    rw [← totalLen_eq h]
    refine ⟨fun short => ?_, fun whole => ⟨?_, ?_⟩⟩
    · exact exec_pullPacket_of_eq (pullPacket_of_partial found short)
    · rw [List.length_take, Block.live_length, Nat.min_eq_left whole]
    · exact exec_pullPacket_of_eq (pullPacket_of_whole found whole)

end Sys2Proof.Machine

/-! PROOFS. 43_packet_extractor.md: two packets in one chunk (R108). -/

namespace Sys2Proof.Machine

/-- A packet at the front of the live bytes, whatever follows it, is handed out whole. -/
theorem pullPacket_of_live {b : Block} {p rest : List Byte} {h : Header} (hs : b.st ≠ .headerReady)
    (live : b.live = p ++ rest) (starts : StartsWithHeader p h) (hl : p.length = totalLen h) :
    pullPacket b =
      (.bytes p, { stream := b.stream, cursor := b.cursor + p.length, st := .empty, hdr := none }) := by
  have starts' : StartsWithHeader b.live h := by
    obtain ⟨b0, b1, b2, b3, b4, b5, more, rfl, rfl⟩ := starts
    exact ⟨b0, b1, b2, b3, b4, b5, more ++ rest, live, rfl⟩
  have whole : totalLen h ≤ b.rem := by
    rw [← Block.live_length, live, ← hl, List.length_append]
    exact Nat.le_add_right _ _
  rw [pullPacket_of_whole (ensureHeader_of_starts hs starts') whole, ← hl, live, List.take_left]

/-- Settles O51. The chunk is only appended, in `Empty`; then each pull finds a packet at the front of the live bytes,
and the last one finds none. -/
theorem twoPacketScenario : Obligations.TwoPacketScenario := by
  intro p q hp hq startsP lengthP p10 startsQ lengthQ q7
  have received : receiveChunk (p ++ q) State.reset.block = ⟨p ++ q, 0, .empty, none⟩ := by
    rw [receiveChunk_of_ne_exhausted (by decide), ingest_eq]; rfl
  have first : pullPacket ⟨p ++ q, 0, .empty, none⟩ = (.bytes p, ⟨p ++ q, 0 + p.length, .empty, none⟩) :=
    pullPacket_of_live (by simp) rfl startsP (by rw [p10, totalLen_eq, lengthP]; rfl)
  have second : pullPacket ⟨p ++ q, 10, .empty, none⟩ = (.bytes q, ⟨p ++ q, 10 + q.length, .empty, none⟩) :=
    pullPacket_of_live (rest := []) (by simp) (by simp [Block.live, ← p10]) startsQ
      (by rw [q7, totalLen_eq, lengthQ]; rfl)
  have third : pullPacket ⟨p ++ q, 17, .empty, none⟩ = (.absent, ⟨p ++ q, 17, .exhausted, none⟩) :=
    pullPacket_of_none (ensureHeader_of_few (by simp) (by simp [Block.rem, p10, q7]))
  rw [p10] at first
  rw [q7] at second
  exact ⟨_, _, _, _, exec_receive_of_fits (fun _ unbounded => nomatch unbounded) received, rfl,
    by simp [Block.rem, p10, q7], exec_pullPacket_of_eq first, rfl, by simp [Block.rem, p10, q7],
    exec_pullPacket_of_eq second, rfl, by simp [Block.rem, p10, q7], exec_pullPacket_of_eq third, rfl, rfl⟩

end Sys2Proof.Machine

/-! PROOFS. 43_packet_extractor.md: what each command keeps of the framing of the fed bytes (R16 to R19, R107). -/

namespace Sys2Proof.Machine

/-- R107: what is framed stays framed, and the tail is framed again with what is appended. -/
theorem frame_append (bytes c : List Byte) :
    frame (bytes ++ c) =
      ((frame bytes).1 ++ (frame ((frame bytes).2 ++ c)).1, (frame ((frame bytes).2 ++ c)).2) := by
  induction hn : bytes.length using Nat.strongRecOn generalizing bytes with
  | ind n ih =>
    rw [frame_eq bytes]
    cases e : frameOne bytes with
    | none => rfl
    | some packet =>
      obtain ⟨p, rest⟩ := packet
      rw [frame_eq (bytes ++ c), frameOne_append c e]
      simp only [ih rest.length (hn ▸ (frameOne_some e).2) rest rfl, List.cons_append]

theorem frame_of_frameOne_none {bytes : List Byte} (e : frameOne bytes = none) : frame bytes = ([], bytes) := by
  rw [frame_eq, e]

theorem frame_of_frameOne_some {bytes p rest : List Byte} (e : frameOne bytes = some (p, rest)) :
    frame bytes = (p :: (frame rest).1, (frame rest).2) := by
  rw [frame_eq, e]

/-- R98 on the live bytes. -/
theorem receiveChunk_live {b : Block} (hi : b.Inv) (c : List Byte) : (receiveChunk c b).live = b.live ++ c := by
  simp [Block.live, List.drop_append_of_le_length hi.cursor_le]

theorem currentHeader_live (b : Block) : (currentHeader b).2.live = b.live := by
  simp [Block.live, currentHeader_frame]

theorem rem_lt_of_headerOf_live_none {b : Block} (few : headerOf b.live = none) : b.rem < hdrLen := by
  rw [← Option.not_isSome_iff_eq_none, headerOf_isSome, Block.live_length] at few
  exact Nat.lt_of_not_le few

/-- An append leaves six or more live bytes' header as it was, so only the `Exhausted` state could be wrong after it. -/
theorem ingest_inv {b : Block} (hi : b.Inv) (c : List Byte) (few : b.st = .exhausted → (ingest c b).rem < hdrLen) :
    (ingest c b).Inv := by
  refine ⟨by simpa using Nat.le_add_right_of_le hi.cursor_le, hi.ready_iff, fun ready => ?_, few⟩
  obtain ⟨six, cached⟩ := hi.ready_cache ready
  have inside : b.cursor + hdrLen ≤ b.stream.length := by
    simp only [Block.rem, hdrLen] at *
    omega
  refine ⟨ingest_rem c b hi.cursor_le ▸ Nat.le_add_right_of_le six, ?_⟩
  rw [ingest_hdr, cached, ingest_stream, ingest_cursor, memRead_append _ _ _ _ inside]

theorem receiveChunk_inv {b : Block} (hi : b.Inv) (c : List Byte) : (receiveChunk c b).Inv := by
  rcases receiveChunk_cases c b with ⟨other, e⟩ | ⟨-, few, e⟩ | ⟨h, -, starts, e⟩ <;> rw [e]
  · exact ingest_inv hi c fun exhausted => absurd exhausted other
  · exact ingest_inv hi c fun _ => rem_lt_of_headerOf_live_none few
  · exact inv_of_cached (by simpa using Nat.le_add_right_of_le hi.cursor_le) starts

theorem currentHeader_inv {b : Block} (hi : b.Inv) : (currentHeader b).2.Inv := by
  rw [currentHeader_of_inv hi]
  cases starts : headerOf b.live with
  | none => exact hi
  | some h => exact inv_of_cached hi.cursor_le starts

/-- With fewer than six live bytes no header is cached (R17, R18), so the state may become `Exhausted`. -/
theorem exhausted_inv {b : Block} (hi : b.Inv) (few : b.rem < hdrLen) : ({ b with st := .exhausted } : Block).Inv := by
  refine ⟨hi.cursor_le, ⟨(nomatch ·), fun cached => ?_⟩, (nomatch ·), fun _ => few⟩
  obtain ⟨six, -⟩ := hi.ready_cache (hi.ready_iff.mpr cached)
  exact absurd few (Nat.not_lt.mpr six)

theorem pullPacket_inv {b : Block} (hi : b.Inv) : (pullPacket b).2.Inv := by
  rw [pullPacket_of_inv hi]
  cases starts : headerOf b.live with
  | none => exact exhausted_inv hi (rem_lt_of_headerOf_live_none starts)
  | some h =>
    dsimp only
    split
    · exact inv_of_cached hi.cursor_le starts
    · next whole =>
      refine ⟨?_, by simp, by simp, by simp⟩
      have := hi.cursor_le
      simp only [Block.rem] at *
      omega

end Sys2Proof.Machine

/-! PROOFS. 70_reset_and_hazards.md: the canonical run (R152). -/

namespace Sys2Proof.Machine

/-- The invariant of the canonical run: the packets handed out, and then those still framed in the live bytes, are the
packets of the fed bytes. -/
structure State.FramesFed (s : State) (fed : List Byte) : Prop where
  inv : s.block.Inv
  unbounded : s.cfg.cap = none
  packets : handedPackets [] s.transcript ++ (frame s.block.live).1 = (frame fed).1
  tail : (frame s.block.live).2 = (frame fed).2

/-- A pull was tried at the tail: no packet is left, and the state is the one `NONE` leaves (R101). -/
structure Block.Drained (b : Block) : Prop where
  noPacket : frameOne b.live = none
  st_eq : b.st = if b.live.length < 6 then .exhausted else .headerReady

theorem start_framesFed (inputs : List Input) : (State.start Config.decided inputs).FramesFed [] :=
  ⟨reset_block_inv, rfl, rfl, rfl⟩

/-- A command that feeds nothing, hands nothing out and leaves the live bytes. -/
theorem State.FramesFed.respond {s : State} {fed : List Byte} {b : Block} {i : Instr} {r : Response}
    (hs : s.FramesFed fed) (inv : b.Inv) (live : b.live = s.block.live)
    (feedsNothing : chunksOf [i] = []) (handsNothing : ∀ acc, handedPackets acc [.answered i r] = acc) :
    ((s.withBlock b).respond i r).FramesFed (fed ++ chunksOf [i]) := by
  rw [feedsNothing, List.append_nil]
  refine ⟨inv, hs.unbounded, ?_, ?_⟩
  · simpa [handedPackets_snoc, handsNothing, live] using hs.packets
  · simpa [live] using hs.tail

/-- R98, R107: RECEIVE feeds its chunk. -/
theorem State.FramesFed.receive {s : State} {fed : List Byte} (hs : s.FramesFed fed) (c : List Byte) :
    ((s.withBlock (receiveChunk c s.block)).respond (.receive c) .accepted).FramesFed (fed ++ chunksOf [.receive c]) := by
  rw [chunksOf, chunksOf, List.append_nil]
  have live := receiveChunk_live hs.inv c
  refine ⟨receiveChunk_inv hs.inv c, hs.unbounded, ?_, ?_⟩
  · rw [State.respond_transcript, handedPackets_snoc, State.respond_block, State.withBlock_block, live,
      frame_append s.block.live, frame_append fed, hs.tail, ← hs.packets, List.append_assoc]
    rfl
  · rw [State.respond_block, State.withBlock_block, live, frame_append s.block.live, frame_append fed, hs.tail]

/-- R101, R107: a pull hands out the first packet still framed, or finds the block drained. -/
theorem State.FramesFed.pullPacket {s : State} {fed : List Byte} (hs : s.FramesFed fed) :
    ((s.withBlock (pullPacket s.block).2).respond .pullPacket (pullPacket s.block).1).FramesFed
      (fed ++ chunksOf [.pullPacket]) := by
  have inv := pullPacket_inv hs.inv
  rcases pullPacket_frames hs.inv with ⟨-, absent, live, -⟩ | ⟨p, rest, first, handed, live⟩
  · exact hs.respond inv live rfl fun acc => by rw [absent]; rfl
  · have framed := frame_of_frameOne_some first
    refine ⟨inv, hs.unbounded, ?_, ?_⟩
    · simp [chunksOf, handedPackets_snoc, handed, handedPackets, live, ← hs.packets, framed]
    · simp [chunksOf, live, ← hs.tail, framed]

/-- Every command keeps the framing of what it and the commands before it fed. -/
theorem exec_keeps_framesFed {i : Instr} (hw : i.WellFormed) {s : State} {fed : List Byte} (hs : s.FramesFed fed) :
    ∃ t : State, exec i s = .next t ∧ t.inputs = s.inputs ∧ t.FramesFed (fed ++ chunksOf [i]) := by
  cases i with
  | receive c =>
    have room : hasRoom s.cfg s.block c.length = true := by simp [hasRoom, hs.unbounded]
    exact ⟨_, exec_receive_room c s room, rfl, hs.receive c⟩
  | currentHeader =>
    exact ⟨_, exec_currentHeader s, rfl,
      hs.respond (currentHeader_inv hs.inv) (currentHeader_live _) rfl fun _ => rfl⟩
  | pullPacket => exact ⟨_, exec_pullPacket s, rfl, hs.pullPacket⟩
  | ingest v => cases hw
  | advance n => cases hw
  | _ => exact ⟨_, rfl, rfl, hs.respond (b := s.block) hs.inv rfl rfl fun _ => rfl⟩

/-- Pulling more often than packets are framed drains the block, and pulling from a drained block leaves it drained. -/
theorem pullPacket_drains {b : Block} (hi : b.Inv) {n : Nat}
    (enough : (frame b.live).1.length < n + 1 ∨ b.Drained) :
    (frame (pullPacket b).2.live).1.length < n ∨ (pullPacket b).2.Drained := by
  rcases pullPacket_frames hi with ⟨unframed, -, live, st⟩ | ⟨p, rest, first, -, live⟩
  · exact .inr ⟨by rw [live, unframed], by rw [live, st]⟩
  · rcases enough with fewer | drained
    · rw [frame_of_frameOne_some first, List.length_cons] at fewer
      exact .inl (live ▸ Nat.lt_of_succ_lt_succ fewer)
    · exact nomatch first.symm.trans drained.noPacket

/-- R56: the port carries every command unchanged. -/
theorem encode_of_wellFormed {i : Instr} (hw : i.WellFormed) : ∃ r, encode i = some r ∧ decodeRequest r = i := by
  cases i with
  | ingest v => cases hw
  | advance n => cases hw
  | _ => exact ⟨_, rfl, rfl⟩

/-- A step takes the first command of the host's list. -/
theorem step_of_commandsOf_cons {i : Instr} (hw : i.WellFormed) {is : List Instr} {s : State}
    (inputs : s.inputs = commandsOf (i :: is)) : step s = exec i { s with inputs := commandsOf is } := by
  obtain ⟨r, encoded, decoded⟩ := encode_of_wellFormed hw
  have first : s.inputs = .command r :: commandsOf is := by simp [inputs, commandsOf, commandOf, encoded]
  simp only [step, takeInput, first, decoded]

theorem run_succ_of_step {s t : State} (n : Nat) (e : step s = .next t) :
    Sys2Proof.core.run (n + 1) s = Sys2Proof.core.run n t := by
  simp only [Host.Core.run, Host.Check.core_step, e]

/-- One command of the host's list, run, and the framing of what it fed. -/
theorem run_command_keeps_framesFed {i : Instr} (hw : i.WellFormed) (is : List Instr) (n : Nat) {s : State}
    {fed : List Byte} (hs : s.FramesFed fed) (inputs : s.inputs = commandsOf (i :: is)) :
    ∃ t : State, exec i { s with inputs := commandsOf is } = .next t ∧
      Sys2Proof.core.run (n + 1) s = Sys2Proof.core.run n t ∧ t.inputs = commandsOf is ∧
      t.FramesFed (fed ++ chunksOf [i]) := by
  have taken : ({ s with inputs := commandsOf is } : State).FramesFed fed := ⟨hs.inv, hs.unbounded, hs.packets, hs.tail⟩
  obtain ⟨t, executed, left, ht⟩ := exec_keeps_framesFed hw taken
  exact ⟨t, executed, run_succ_of_step n ((step_of_commandsOf_cons hw inputs).trans executed), left, ht⟩

theorem chunksOf_cons (i : Instr) (is : List Instr) : chunksOf (i :: is) = chunksOf [i] ++ chunksOf is := by
  cases i <;> simp [chunksOf]

/-- Any commands of the host's list, run, and the framing of all they fed. -/
theorem run_commands_keeps_framesFed (is rest : List Instr) (n : Nat) (hw : ∀ i ∈ is, i.WellFormed) {s : State}
    {fed : List Byte} (hs : s.FramesFed fed) (inputs : s.inputs = commandsOf (is ++ rest)) :
    ∃ t : State, Sys2Proof.core.run (is.length + n) s = Sys2Proof.core.run n t ∧ t.inputs = commandsOf rest ∧
      t.FramesFed (fed ++ chunksOf is) := by
  induction is generalizing s fed with
  | nil => exact ⟨s, by rw [List.length_nil, Nat.zero_add], inputs, by rwa [chunksOf, List.append_nil]⟩
  | cons i is ih =>
    obtain ⟨first, others⟩ := List.forall_mem_cons.mp hw
    obtain ⟨t, -, ran, left, ht⟩ := run_command_keeps_framesFed first (is ++ rest) (is.length + n) hs inputs
    obtain ⟨u, ranAll, leftAll, hu⟩ := ih others ht left
    refine ⟨u, ?_, leftAll, ?_⟩
    · rw [List.length_cons, Nat.add_right_comm, ran, ranAll]
    · rwa [chunksOf_cons, ← List.append_assoc]

/-- R107: enough pulls of the host's list, run, drain the block. -/
theorem run_pulls_drain (n : Nat) {s : State} {fed : List Byte} (hs : s.FramesFed fed)
    (inputs : s.inputs = commandsOf (List.replicate n .pullPacket))
    (enough : (frame s.block.live).1.length < n ∨ s.block.Drained) :
    ∃ t : State, Sys2Proof.core.run n s = .next t ∧ t.FramesFed fed ∧ t.block.Drained := by
  induction n generalizing s with
  | zero => exact ⟨s, rfl, hs, enough.resolve_left (Nat.not_lt_zero _)⟩
  | succ n ih =>
    obtain ⟨t, pulled, ran, left, ht⟩ :=
      run_command_keeps_framesFed (i := .pullPacket) rfl (List.replicate n .pullPacket) n hs inputs
    have nearer : (frame t.block.live).1.length < n ∨ t.block.Drained := by
      cases pulled
      exact pullPacket_drains hs.inv enough
    rw [ran]
    exact ih (by simpa [chunksOf] using ht) left nearer

/-- Settles O56. The commands keep `FramesFed` of what they fed; the pulls then drain the block; and a drained block has
nothing framed left in its live bytes, so all the packets were handed out and the live bytes are the tail. -/
theorem canonicalRunHandsOutTheFramedInput : Obligations.CanonicalRunHandsOutTheFramedInput := by
  intro is n hw enough
  obtain ⟨s, ranCommands, left, hs⟩ :=
    run_commands_keeps_framesFed is (List.replicate n .pullPacket) n hw (start_framesFed _) rfl
  rw [List.nil_append] at hs
  have fewer : (frame s.block.live).1.length < n := by
    rw [← hs.packets, List.length_append] at enough
    omega
  obtain ⟨t, ranPulls, ht, drained⟩ := run_pulls_drain n hs left (.inl fewer)
  have packets := ht.packets
  have tail := ht.tail
  rw [frame_of_frameOne_none drained.noPacket] at packets tail
  refine ⟨t, ranCommands.trans ranPulls, (List.append_nil _).symm.trans packets, tail, ?_, ?_⟩
  · rw [exec_remaining, ← Block.live_length, ← tail]; rfl
  · rw [drained.st_eq, ← tail]

end Sys2Proof.Machine

/-! PROOFS. 41_header_decoder.md and 30_encoding.md: the header as slices of its bytes, of its three words and of its
48-bit value (R51, R52), the inverse of the decoder (R83, R84), and which bits a field depends on (R82). -/

namespace Sys2Proof.Machine

/-! ### A word of two bytes (R7) -/

theorem be16_eq_append (hi lo : Byte) : be16 hi lo = hi ++ lo := by
  rw [be16, ← BitVec.setWidth_append_eq_shiftLeft_setWidth_or, BitVec.setWidth_eq]

theorem be16_high (hi lo : Byte) : (be16 hi lo >>> 8).setWidth 8 = hi := by
  rw [be16_eq_append, BitVec.setWidth_ushiftRight_eq_extractLsb, BitVec.extractLsb'_append_eq_left]

theorem be16_low (hi lo : Byte) : (be16 hi lo).setWidth 8 = lo := by
  rw [be16_eq_append, BitVec.setWidth_append_eq_right]

theorem be16_of_halves (w : BitVec 16) : be16 ((w >>> 8).setWidth 8) (w.setWidth 8) = w := by
  rw [be16_eq_append, BitVec.setWidth_ushiftRight_eq_extractLsb, BitVec.setWidth_eq_extractLsb' (by decide)]
  exact BitVec.extractLsb'_append_extractLsb' (w := 8) (len := 8)

/-- A slice within the high byte. -/
theorem be16_extractLsb'_high (hi lo : Byte) (k w : Nat) :
    (be16 hi lo).extractLsb' (k + 8) w = hi.extractLsb' k w := by
  rw [be16_eq_append, BitVec.extractLsb'_append_eq_of_le (Nat.le_add_left 8 k), Nat.add_sub_cancel]

/-- The low byte with the low `k` bits of the high one. -/
theorem be16_setWidth (hi lo : Byte) (k : Nat) : (be16 hi lo).setWidth (k + 8) = hi.setWidth k ++ lo := by
  rw [be16_eq_append, BitVec.setWidth_append_of_eq rfl, BitVec.setWidth_eq]

/-- A mask that keeps the low `k` bits of the high byte takes nothing from a field that ends there. -/
theorem be16_masked_setWidth (hi lo mask : Byte) {k : Nat} (hm : mask.setWidth k = BitVec.allOnes k) :
    (be16 (hi &&& mask) lo).setWidth (k + 8) = (be16 hi lo).setWidth (k + 8) := by
  rw [be16_setWidth, be16_setWidth, BitVec.setWidth_and, hm, BitVec.and_allOnes]

/-! ### The views of the header -/

/-- R52: a one-bit field is its bit of the byte. -/
theorem flagBit_eq_extractLsb' (b : Byte) (k : Nat) : ((b >>> k) &&& 1).setWidth 1 = b.extractLsb' k 1 := by
  rw [BitVec.setWidth_and, BitVec.setWidth_ushiftRight_eq_extractLsb]
  exact BitVec.and_allOnes

/-- R51: the fields as slices of the Control, Sequence and Length words. -/
def headerOfWords (w0 w1 w2 : BitVec 16) : Header where
  version := w0.extractLsb' 13 3
  packetType := w0.extractLsb' 12 1
  secondaryHeaderFlag := w0.extractLsb' 11 1
  apid := w0.extractLsb' 0 11
  sequenceFlags := w1.extractLsb' 14 2
  sequenceCount := w1.extractLsb' 0 14
  lengthField := w2
  endianness := .big

/-- The shifts and masks of the decoder (R80) read the slices of the three words. -/
theorem decodeHdr_eq_headerOfWords (b0 b1 b2 b3 b4 b5 : Byte) :
    decodeHdr b0 b1 b2 b3 b4 b5 = headerOfWords (be16 b0 b1) (be16 b2 b3) (be16 b4 b5) := by
  simp only [decodeHdr, headerOfWords, Header.mk.injEq]
  refine ⟨?version, ?packetType, ?secondaryHeaderFlag, ?apid, ?sequenceFlags, ?sequenceCount, rfl, rfl⟩
  case version => rw [be16_extractLsb'_high b0 b1 5, BitVec.setWidth_ushiftRight_eq_extractLsb]
  case packetType => rw [be16_extractLsb'_high b0 b1 4, flagBit_eq_extractLsb']
  case secondaryHeaderFlag => rw [be16_extractLsb'_high b0 b1 3, flagBit_eq_extractLsb']
  case apid =>
    rw [← BitVec.setWidth_eq_extractLsb' (by decide)]
    exact be16_masked_setWidth b0 b1 0x07 (k := 3) (by decide)
  case sequenceFlags => rw [be16_extractLsb'_high b2 b3 6, BitVec.setWidth_ushiftRight_eq_extractLsb]
  case sequenceCount =>
    rw [← BitVec.setWidth_eq_extractLsb' (by decide)]
    exact be16_masked_setWidth b2 b3 0x3F (k := 6) (by decide)

/-- R51: the 48-bit value is its three words, the Control word on top. -/
theorem headerWord_eq_append (b0 b1 b2 b3 b4 b5 : Byte) :
    headerWord b0 b1 b2 b3 b4 b5 = be16 b0 b1 ++ be16 b2 b3 ++ be16 b4 b5 := by
  rw [← BitVec.setWidth_eq (be16 b0 b1 ++ be16 b2 b3 ++ be16 b4 b5),
    BitVec.setWidth_append_append_eq_shiftLeft_setWidth_or]
  ext i hi
  simp only [headerWord, be16, BitVec.getElem_or, BitVec.getElem_shiftLeft, BitVec.getElem_setWidth, BitVec.getLsbD_or,
    BitVec.getLsbD_shiftLeft, BitVec.getLsbD_setWidth]
  grind

theorem extractLsb'_append_append {u v w : Nat} (hi : BitVec u) (mid : BitVec v) (lo : BitVec w) :
    (hi ++ mid ++ lo).extractLsb' w v = mid := by
  rw [BitVec.extractLsb'_append_eq_of_le (Nat.le_refl w), Nat.sub_self, BitVec.extractLsb'_append_eq_right]

/-- A slice of the 48-bit value within its Control word. -/
theorem headerWord_extractLsb'_control (b0 b1 b2 b3 b4 b5 : Byte) (k w : Nat) :
    (headerWord b0 b1 b2 b3 b4 b5).extractLsb' (k + 16 + 16) w = (be16 b0 b1).extractLsb' k w := by
  rw [headerWord_eq_append, BitVec.extractLsb'_append_eq_of_le (Nat.le_add_left 16 _), Nat.add_sub_cancel,
    BitVec.extractLsb'_append_eq_of_le (Nat.le_add_left 16 _), Nat.add_sub_cancel]

/-- A slice of the 48-bit value within its Sequence word. -/
theorem headerWord_extractLsb'_sequence (b0 b1 b2 b3 b4 b5 : Byte) {k w : Nat} (hk : k + w ≤ 16) :
    (headerWord b0 b1 b2 b3 b4 b5).extractLsb' (k + 16) w = (be16 b2 b3).extractLsb' k w := by
  rw [headerWord_eq_append, BitVec.extractLsb'_append_eq_of_le (Nat.le_add_left 16 _), Nat.add_sub_cancel,
    BitVec.extractLsb'_append_eq_of_add_le hk]

/-- The Length word at the bottom of the 48-bit value. -/
theorem headerWord_extractLsb'_length (b0 b1 b2 b3 b4 b5 : Byte) :
    (headerWord b0 b1 b2 b3 b4 b5).extractLsb' 0 16 = be16 b4 b5 := by
  rw [headerWord_eq_append, BitVec.extractLsb'_append_eq_right]

/-- A field of two bytes as its bits of the bytes. -/
theorem be16_extractLsb'_low (hi lo : Byte) {k : Nat} (hk : k ≤ 8) :
    (be16 hi lo).extractLsb' 0 (k + 8) = hi.extractLsb' 0 k ++ lo := by
  rw [← BitVec.setWidth_eq_extractLsb' (by omega), be16_setWidth, BitVec.setWidth_eq_extractLsb' hk]

/-- Settles O29. The fields are slices of the words (`decodeHdr_eq_headerOfWords`); a slice of a word is one of the
48-bit value, and it is one of a byte where it does not cross into the other. -/
theorem headerViewsAgree : Obligations.HeaderViewsAgree := by
  intro b0 b1 b2 b3 b4 b5 h H W0 W1 W2
  have fields : h = headerOfWords W0 W1 W2 := decodeHdr_eq_headerOfWords b0 b1 b2 b3 b4 b5
  have control (k w : Nat) : H.extractLsb' (k + 16 + 16) w = W0.extractLsb' k w :=
    headerWord_extractLsb'_control b0 b1 b2 b3 b4 b5 k w
  have sequence {k w : Nat} (hk : k + w ≤ 16) : H.extractLsb' (k + 16) w = W1.extractLsb' k w :=
    headerWord_extractLsb'_sequence b0 b1 b2 b3 b4 b5 hk
  rw [fields]
  refine ⟨⟨?_, rfl, ?_⟩, ⟨?_, rfl, ?_⟩, ⟨?_, rfl, ?_⟩, ⟨?_, rfl, ?_⟩, ⟨?_, rfl, ?_⟩, ⟨?_, rfl, ?_⟩, ?_, rfl, ?_⟩
  · exact (control 13 3).symm
  · exact be16_extractLsb'_high b0 b1 5 3
  · exact (control 12 1).symm
  · exact be16_extractLsb'_high b0 b1 4 1
  · exact (control 11 1).symm
  · exact be16_extractLsb'_high b0 b1 3 1
  · exact (control 0 11).symm
  · exact be16_extractLsb'_low b0 b1 (k := 3) (by decide)
  · exact (sequence (k := 14) (by decide)).symm
  · exact be16_extractLsb'_high b2 b3 6 2
  · exact (sequence (k := 0) (by decide)).symm
  · exact be16_extractLsb'_low b2 b3 (k := 6) (by decide)
  · exact (headerWord_extractLsb'_length b0 b1 b2 b3 b4 b5).symm
  · exact be16_eq_append b4 b5

/-! ### The operand of DECODE -/

theorem sliceByte_eq_extractLsb' (slice : BitVec 48) (k : Nat) :
    sliceByte slice k = slice.extractLsb' (40 - 8 * k) 8 := by
  rw [sliceByte, BitVec.setWidth_ushiftRight_eq_extractLsb]

/-- R54: the operand is made of its six bytes, so every operand is some header's 48-bit value. -/
theorem headerWord_sliceByte (slice : BitVec 48) :
    headerWord (sliceByte slice 0) (sliceByte slice 1) (sliceByte slice 2) (sliceByte slice 3) (sliceByte slice 4)
      (sliceByte slice 5) = slice := by
  simp only [headerWord_eq_append, be16_eq_append, sliceByte_eq_extractLsb']
  rw [BitVec.extractLsb'_append_extractLsb'_eq_extractLsb' (by decide : 40 - 8 * 0 = 40 - 8 * 1 + 8),
    BitVec.extractLsb'_append_extractLsb'_eq_extractLsb' (by decide : 40 - 8 * 2 = 40 - 8 * 3 + 8),
    BitVec.extractLsb'_append_extractLsb'_eq_extractLsb' (by decide : 40 - 8 * 4 = 40 - 8 * 5 + 8),
    BitVec.extractLsb'_append_extractLsb'_eq_extractLsb' (by decide : 40 - 8 * 1 = 40 - 8 * 3 + (8 + 8)),
    BitVec.extractLsb'_append_extractLsb'_eq_extractLsb' (by decide : 40 - 8 * 3 = 40 - 8 * 5 + (8 + 8))]
  exact BitVec.extractLsb'_eq_self

/-- Settles O30. DECODE only answers (`exec_decode`); its operand is the 48-bit value of its six bytes, so the slices of
the answer's fields are those of the first view of R51. -/
theorem decodeOperandBitPlaces : Obligations.DecodeOperandBitPlaces := by
  intro slice s
  obtain ⟨⟨version, -⟩, ⟨packetType, -⟩, ⟨secondaryHeaderFlag, -⟩, ⟨apid, -⟩, ⟨sequenceFlags, -⟩, ⟨sequenceCount, -⟩,
    lengthField, -⟩ := headerViewsAgree (sliceByte slice 0) (sliceByte slice 1) (sliceByte slice 2) (sliceByte slice 3)
      (sliceByte slice 4) (sliceByte slice 5)
  rw [headerWord_sliceByte] at version packetType secondaryHeaderFlag apid sequenceFlags sequenceCount lengthField
  exact ⟨decodeSlice slice, exec_decode slice s, version, packetType, secondaryHeaderFlag, apid, sequenceFlags,
    sequenceCount, lengthField, rfl⟩

/-! ### Which bits a field depends on -/

/-- A slice that a mask covers depends on the masked bits only. -/
theorem extractLsb'_of_masked {n k w : Nat} {x y mask : BitVec n} (covers : mask.extractLsb' k w = BitVec.allOnes w)
    (agree : x &&& mask = y &&& mask) : x.extractLsb' k w = y.extractLsb' k w := by
  have sliced := congrArg (BitVec.extractLsb' k w) agree
  simpa only [BitVec.extractLsb'_and, covers, BitVec.and_allOnes] using sliced

/-- Settles O32. In the third view of R51 each field is some bits of its bytes, and the table's masks cover them. -/
theorem fieldsDependOnOwnBitsOnly : Obligations.FieldsDependOnOwnBitsOnly := by
  intro b0 b1 b2 b3 b4 b5 c0 c1 c2 c3 c4 c5 h g
  obtain ⟨⟨-, -, version⟩, ⟨-, -, packetType⟩, ⟨-, -, secondaryHeaderFlag⟩, ⟨-, -, apid⟩, ⟨-, -, sequenceFlags⟩,
    ⟨-, -, sequenceCount⟩, -, -, lengthField⟩ := headerViewsAgree b0 b1 b2 b3 b4 b5
  obtain ⟨⟨-, -, version'⟩, ⟨-, -, packetType'⟩, ⟨-, -, secondaryHeaderFlag'⟩, ⟨-, -, apid'⟩, ⟨-, -, sequenceFlags'⟩,
    ⟨-, -, sequenceCount'⟩, -, -, lengthField'⟩ := headerViewsAgree c0 c1 c2 c3 c4 c5
  refine ⟨fun agree => ?_, fun agree => ?_, fun agree => ?_, fun agree low => ?_, fun agree => ?_, fun agree low => ?_,
    fun high low => ?_, rfl⟩
  · exact version.trans ((extractLsb'_of_masked (by decide) agree).trans version'.symm)
  · exact packetType.trans ((extractLsb'_of_masked (by decide) agree).trans packetType'.symm)
  · exact secondaryHeaderFlag.trans ((extractLsb'_of_masked (by decide) agree).trans secondaryHeaderFlag'.symm)
  · subst low
    exact apid.trans ((congrArg (· ++ b1) (extractLsb'_of_masked (by decide) agree)).trans apid'.symm)
  · exact sequenceFlags.trans ((extractLsb'_of_masked (by decide) agree).trans sequenceFlags'.symm)
  · subst low
    exact sequenceCount.trans ((congrArg (· ++ b3) (extractLsb'_of_masked (by decide) agree)).trans sequenceCount'.symm)
  · subst high low
    exact lengthField.trans lengthField'.symm

/-! ### The inverse of the decoder -/

theorem controlWord_eq_append (h : Header) :
    controlWord h = h.version ++ h.packetType ++ h.secondaryHeaderFlag ++ h.apid := by
  rw [← BitVec.setWidth_eq (h.version ++ h.packetType ++ h.secondaryHeaderFlag ++ h.apid),
    BitVec.setWidth_append_append_append_eq_shiftLeft_setWidth_or]
  rfl

theorem sequenceWord_eq_append (h : Header) : sequenceWord h = h.sequenceFlags ++ h.sequenceCount := by
  rw [sequenceWord, ← BitVec.setWidth_append_eq_shiftLeft_setWidth_or, BitVec.setWidth_eq]

/-- The four fields of the Control word cover it. -/
theorem controlWord_headerOfWords (w0 w1 w2 : BitVec 16) : controlWord (headerOfWords w0 w1 w2) = w0 := by
  rw [controlWord_eq_append]
  simp only [headerOfWords]
  rw [BitVec.extractLsb'_append_extractLsb'_eq_extractLsb' (rfl : 13 = 12 + 1),
    BitVec.extractLsb'_append_extractLsb'_eq_extractLsb' (rfl : 12 = 11 + 1),
    BitVec.extractLsb'_append_extractLsb'_eq_extractLsb' (rfl : 11 = 0 + 11)]
  exact BitVec.extractLsb'_eq_self

/-- The two fields of the Sequence word cover it. -/
theorem sequenceWord_headerOfWords (w0 w1 w2 : BitVec 16) : sequenceWord (headerOfWords w0 w1 w2) = w1 := by
  rw [sequenceWord_eq_append]
  exact BitVec.extractLsb'_append_extractLsb' (w := 2) (len := 14)

/-- R83, R84 on the words: the fields of the encoded words are the fields. -/
theorem headerOfWords_words {h : Header} (big : h.endianness = .big) :
    headerOfWords (controlWord h) (sequenceWord h) h.lengthField = h := by
  obtain ⟨version, packetType, secondaryHeaderFlag, apid, sequenceFlags, sequenceCount, lengthField, _⟩ := h
  cases big
  simp only [headerOfWords, controlWord_eq_append, sequenceWord_eq_append, Header.mk.injEq, and_true]
  refine ⟨?version, ?packetType, ?secondaryHeaderFlag, ?apid, ?sequenceFlags, ?sequenceCount⟩
  case version =>
    calc (version ++ packetType ++ secondaryHeaderFlag ++ apid).extractLsb' 13 3
      _ = (version ++ packetType ++ secondaryHeaderFlag).extractLsb' 2 3 :=
        BitVec.extractLsb'_append_eq_of_le (by decide)
      _ = (version ++ packetType).extractLsb' 1 3 := BitVec.extractLsb'_append_eq_of_le (by decide)
      _ = version := BitVec.extractLsb'_append_eq_left
  case packetType =>
    calc (version ++ packetType ++ secondaryHeaderFlag ++ apid).extractLsb' 12 1
      _ = (version ++ packetType ++ secondaryHeaderFlag).extractLsb' 1 1 :=
        BitVec.extractLsb'_append_eq_of_le (by decide)
      _ = packetType := extractLsb'_append_append _ _ _
  case secondaryHeaderFlag => exact extractLsb'_append_append _ _ _
  case apid => exact BitVec.extractLsb'_append_eq_right
  case sequenceFlags => exact BitVec.extractLsb'_append_eq_left
  case sequenceCount => exact BitVec.extractLsb'_append_eq_right

/-- R84: no bit is dropped. -/
theorem decodeHdrSeq_encodeHdr {h : Header} (big : h.endianness = .big) : decodeHdrSeq (encodeHdr h) = some h := by
  rw [encodeHdr, decodeHdrSeq, decodeHdr_eq_headerOfWords, be16_of_halves, be16_of_halves, be16_of_halves,
    headerOfWords_words big]

/-- R84: no bit is invented. -/
theorem encodeHdr_decodeHdr (b0 b1 b2 b3 b4 b5 : Byte) :
    encodeHdr (decodeHdr b0 b1 b2 b3 b4 b5) = [b0, b1, b2, b3, b4, b5] := by
  have length : (headerOfWords (be16 b0 b1) (be16 b2 b3) (be16 b4 b5)).lengthField = be16 b4 b5 := rfl
  rw [decodeHdr_eq_headerOfWords, encodeHdr, controlWord_headerOfWords, sequenceWord_headerOfWords, length]
  simp only [be16_high, be16_low]

/-- R80: the decoder reads any six bytes. -/
theorem decodeHdrSeq_of_length {bytes : List Byte} (six : bytes.length = 6) :
    ∃ b0 b1 b2 b3 b4 b5,
      bytes = [b0, b1, b2, b3, b4, b5] ∧ decodeHdrSeq bytes = some (decodeHdr b0 b1 b2 b3 b4 b5) := by
  obtain ⟨h, decoded⟩ := Option.isSome_iff_exists.mp ((decodeHdrSeq_isSome bytes).mpr six)
  unfold decodeHdrSeq at decoded
  split at decoded
  · exact ⟨_, _, _, _, _, _, rfl, rfl⟩
  · cases decoded

/-- Settles O31. Both directions go through the three words: a word is its two bytes, and its fields cover it. -/
theorem headerCodecRoundTrip : Obligations.HeaderCodecRoundTrip := by
  refine ⟨fun _ big => decodeHdrSeq_encodeHdr big, encodeHdr_decodeHdr, fun bytes six => ?_⟩
  obtain ⟨b0, b1, b2, b3, b4, b5, rfl, decoded⟩ := decodeHdrSeq_of_length six
  exact ⟨_, decoded, encodeHdr_decodeHdr b0 b1 b2 b3 b4 b5⟩

end Sys2Proof.Machine

/-! PROOFS. 10_state.md and 30_encoding.md: reset (R21, R140 to R142), the codec of the port (R54 to R56), and what
every command and every step is (R5, R41, R57, R120). -/

namespace Sys2Proof.Machine

/-! ### Reset -/

/-- Settles O1. The fields of the construction state, one after another. -/
theorem resetLeavesConstructionState : Obligations.ResetLeavesConstructionState :=
  ⟨Block.reset_stream, Block.reset_cursor, Block.reset_st, Block.reset_hdr, rfl⟩

theorem step_of_reset {s : State} {rest : List Input} (next : s.inputs = .reset :: rest) :
    step s = .next (resetEvent { s with inputs := rest }) := by
  rw [step, takeInput, next]

/-- Settles O2. A reset event at the head of the host's list happens (`step_of_reset`), and it leaves `Block.reset`. -/
theorem resetEventRestoresConstructionState : Obligations.ResetEventRestoresConstructionState :=
  fun _ _ next => step_of_reset next

/-- Settles O3. There are no live bytes after reset, so CURRENT_HEADER and PULL_PACKET find no header. -/
theorem answersStraightAfterReset : Obligations.AnswersStraightAfterReset := by
  have noHeader : ensureHeader State.reset.block = none := ensureHeader_of_few (by decide) (by decide)
  exact ⟨rfl, exec_currentHeader_of_none noHeader, exec_pullPacket_of_eq (pullPacket_of_none noHeader), rfl, rfl, rfl,
    fun _ => rfl⟩

theorem start_withinCap (cfg : Config) (inputs : List Input) : (State.start cfg inputs).WithinCap :=
  fun c _ => Nat.zero_le c

/-- Settles O4. The construction state keeps the invariants (`reset_block_inv`), and has no live bytes. -/
theorem invariantsHoldAtReset : Obligations.InvariantsHoldAtReset :=
  ⟨reset_block_inv, fun cfg inputs => ⟨reset_block_inv, start_withinCap cfg inputs⟩⟩

/-! ### The codec of the port -/

/-- R56: an instruction with an opcode is a command of the port. -/
theorem wellFormed_of_encode {i : Instr} {r : Request} (encoded : encode i = some r) : i.WellFormed := by
  cases i with
  | ingest v => cases encoded
  | advance n => cases encoded
  | _ => rfl

/-- R54: the ignored fields of a request are lost in the decoder, and nothing else is. -/
theorem encode_decodeRequest (r : Request) : encode (decodeRequest r) = some r.canonical := by
  obtain ⟨op, chunk, slice, off, len⟩ := r
  obtain ⟨op⟩ := op
  fin_cases op <;> rfl

/-- Settles O14. The request of an instruction decodes to it (`encode_of_wellFormed`); the other direction is
`encode_decodeRequest`. -/
theorem portCodecRoundTrip : Obligations.PortCodecRoundTrip := by
  refine ⟨fun i hw => encode_of_wellFormed hw, fun i ill => ?_, encode_decodeRequest⟩
  by_contra some
  obtain ⟨r, encoded⟩ := Option.ne_none_iff_exists'.mp some
  exact ill (wellFormed_of_encode encoded)

/-! ### Commands and steps -/

theorem step_of_command {s : State} {r : Request} {rest : List Input} (next : s.inputs = .command r :: rest) :
    step s = exec (decodeRequest r) { s with inputs := rest } := by
  rw [step, takeInput, next]

theorem step_of_idle {s : State} (idle : s.inputs = []) : step s = .next s := by
  rw [step, takeInput, idle]

/-- Settles O15. The clauses are what a step is with a command at the head of the list, and with an empty list. -/
theorem stepRunsTheDecodedCommand : Obligations.StepRunsTheDecodedCommand :=
  ⟨fun _ _ _ next => step_of_command next, fun _ idle => step_of_idle idle⟩

/-- A table word with an instruction has a request that decodes to it. -/
theorem tableRequest_of_decodeTableWord {nbits w : Nat} {i : Instr} (decoded : decodeTableWord nbits w = some i) :
    ∃ r, tableRequest nbits w = .ok r ∧ decodeRequest r = i := by
  rw [decodeTableWord] at decoded
  cases request : tableRequest nbits w with
  | ok r =>
    rw [request] at decoded
    exact ⟨r, rfl, Option.some.inj decoded⟩
  | error reason =>
    rw [request] at decoded
    cases decoded

/-- The request of a table word stands at the head of the host's list. -/
theorem withFetchWord_of_tableRequest {nbits w : Nat} {r : Request} (request : tableRequest nbits w = .ok r)
    (s : State) : s.withFetchWord nbits w = { s with inputs := .command r :: s.inputs } := by
  rw [State.withFetchWord, issueTableWord, request]

/-- Settles O16. A word with an instruction has a request, which `withFetchWord` puts at the head of the host's list,
and a step runs what that decodes to. -/
theorem tableWordRunsAsNextCommand : Obligations.TableWordRunsAsNextCommand := by
  refine ⟨fun s nbits w i decoded => ?_, by decide⟩
  obtain ⟨r, request, rfl⟩ := tableRequest_of_decodeTableWord decoded
  rw [withFetchWord_of_tableRequest request]
  exact step_of_command rfl

/-- R57, R120: a command changes the block and is answered once. -/
theorem exec_answers {i : Instr} (hw : i.WellFormed) (s : State) :
    ∃ b r, exec i s = .next ((s.withBlock b).respond i r) := by
  obtain ⟨f, answers⟩ := exec_depends_on_block i hw
  exact ⟨_, _, answers s⟩

/-- Settles O18: it is `exec_answers`, with the record updates written out. -/
theorem oneResponsePerCommand : Obligations.OneResponsePerCommand := fun _ s hw => exec_answers hw s

/-- R120: the internal steps have a next state too. -/
theorem exec_total (i : Instr) (s : State) : ∃ t, exec i s = .next t := by
  by_cases hw : i.WellFormed
  · obtain ⟨b, r, answers⟩ := exec_answers hw s
    exact ⟨_, answers⟩
  · cases i with
    | ingest v => exact ⟨_, exec_ingest v s⟩
    | advance n => exact ⟨_, exec_advance n s⟩
    | _ => exact absurd rfl hw

/-- Settles O19. The host is idle, resets, or issues a command, and every command has a next state (`exec_total`). -/
theorem stepAlwaysHasNextState : Obligations.StepAlwaysHasNextState := by
  refine ⟨fun s => ?_, exec_total⟩
  rcases next : s.inputs with _ | ⟨input, rest⟩
  · exact ⟨s, step_of_idle next⟩
  · cases input with
    | reset => exact ⟨_, step_of_reset next⟩
    | command r =>
      rw [step_of_command next]
      exact exec_total _ _

/-- Settles O17. Each answer is a record of literal fields. -/
theorem responseFieldsAtThePort : Obligations.ResponseFieldsAtThePort :=
  ⟨rfl, fun _ => rfl, fun _ => rfl, fun _ => rfl, fun _ => rfl, rfl, rfl, rfl⟩

/-- Settles O33. Seven closed decodes, computed. -/
theorem literalHeaderVectors : Obligations.LiteralHeaderVectors := by
  unfold Obligations.LiteralHeaderVectors
  decide

end Sys2Proof.Machine

/-! PROOFS. 40_byte_ingestion_buffer.md: INGEST (R70, R75), ADVANCE (R73) and the capacity (R71). -/

namespace Sys2Proof.Machine

/-- R75: INGEST keeps no chunk boundary. -/
theorem ingest_ingest (a b : List Byte) (blk : Block) : ingest b (ingest a blk) = ingest (a ++ b) blk := by
  rw [ingest_eq, ingest_eq, ingest_eq, List.append_assoc]

/-- Settles O22. INGEST appends (`ingest_eq`), which adds its bytes to the live ones (`ingest_rem`). -/
theorem ingestAppends : Obligations.IngestAppends := by
  refine fun v s => ⟨?_, fun inside => ?_⟩
  · rw [exec_ingest, ingest_eq]
    rfl
  · rw [← ingest_rem v s.block inside, Block.rem, ingest_stream, ingest_cursor]

/-- Settles O27. On the block it is `ingest_ingest`; the result is `done` both times. -/
theorem ingestKeepsNoChunkBoundary : Obligations.IngestKeepsNoChunkBoundary := by
  intro a b s
  simp only [execAll, exec_ingest, State.withStepResult_block, State.withBlock_block, ingest_ingest]
  rfl

/-- Settles O25. The two clauses are the two cases of `advance_spec`. -/
theorem advanceMovesOrFails : Obligations.AdvanceMovesOrFails := by
  intro n s
  rw [exec_advance]
  rcases advance_spec n s.block with ⟨short, fails⟩ | ⟨enough, moves⟩
  · rw [fails]
    exact ⟨fun enough => absurd short (Nat.not_lt.mpr enough), fun _ => rfl⟩
  · rw [moves]
    exact ⟨fun _ => rfl, fun short => absurd short (Nat.not_lt.mpr enough)⟩

/-- R71, R98, said once: a RECEIVE is accepted where there is room, and only answered where there is none. -/
theorem exec_receive_cases {c : List Byte} {s t : State} (e : exec (.receive c) s = .next t) :
    (hasRoom s.cfg s.block c.length = true ∧
      t = (s.withBlock (receiveChunk c s.block)).respond (.receive c) .accepted) ∨
    (hasRoom s.cfg s.block c.length = false ∧ t = s.respond (.receive c) .full) := by
  cases room : hasRoom s.cfg s.block c.length with
  | true =>
    cases (exec_receive_room c s room).symm.trans e
    exact .inl ⟨rfl, rfl⟩
  | false =>
    cases (exec_receive_full c s room).symm.trans e
    exact .inr ⟨rfl, rfl⟩

theorem hasRoom_eq_false {cfg : Config} {b : Block} {n k : Nat} (finite : cfg.cap = some k) (excess : k < b.rem + n) :
    hasRoom cfg b n = false := by
  rw [hasRoom, finite]
  exact decide_eq_false (Nat.not_le.mpr excess)

/-- Settles O23. A RECEIVE that fits leaves `receiveChunk` of the block, whatever the capacity (`exec_receive_of_fits`);
one that does not fit is only answered. -/
theorem receiveRespectsCapacity : Obligations.ReceiveRespectsCapacity := by
  intro c s
  refine ⟨⟨receiveChunk c s.block, ?unbounded, fun k fits => ?finite⟩, fun k excess => ?refused⟩
  case unbounded => exact exec_receive_of_fits (s := { s with cfg := ⟨none⟩ }) (fun _ none => nomatch none) rfl
  case finite =>
    exact exec_receive_of_fits (s := { s with cfg := ⟨some k⟩ }) (fun _ same => Option.some.inj same ▸ fits) rfl
  case refused => exact exec_receive_full c { s with cfg := ⟨some k⟩ } (hasRoom_eq_false rfl excess)

end Sys2Proof.Machine

/-! PROOFS. 10_state.md section 2 and 20_memory.md: what every command and every step keeps of the block and of the
transcript (R16 to R20, R30, R36, R39, R71, R109). -/

namespace Sys2Proof.Machine

/-! ### What every command keeps -/

/-- What a command of the port leaves in the block: the three extractor commands can write it, and no other does. -/
theorem exec_command_block_cases {i : Instr} (hw : i.WellFormed) {s t : State} (e : exec i s = .next t) :
    (∃ c, i = .receive c ∧ t.block = receiveChunk c s.block) ∨ t.block = (currentHeader s.block).2 ∨
    t.block = (pullPacket s.block).2 ∨ t.block = s.block := by
  rcases exec_block_cases e with
    receives | ⟨-, peeks⟩ | ⟨-, pulls⟩ | ⟨v, rfl, -⟩ | ⟨n, rfl, -⟩ | onlyAnswers
  · exact .inl receives
  · exact .inr (.inl peeks)
  · exact .inr (.inr (.inl pulls))
  · cases hw
  · cases hw
  · exact .inr (.inr (.inr onlyAnswers))

/-- R109 for a command: only the three extractor commands write the block, and each of them keeps R16 to R19. -/
theorem exec_inv {i : Instr} (hw : i.WellFormed) {s t : State} (hi : s.block.Inv) (e : exec i s = .next t) :
    t.block.Inv := by
  rcases exec_command_block_cases hw e with ⟨c, -, receives⟩ | peeks | pulls | onlyAnswers
  · exact receives ▸ receiveChunk_inv hi c
  · exact peeks ▸ currentHeader_inv hi
  · exact pulls ▸ pullPacket_inv hi
  · exact onlyAnswers ▸ hi

/-- R6: no command writes the parameter. -/
theorem exec_cfg {i : Instr} (hw : i.WellFormed) {s t : State} (e : exec i s = .next t) : t.cfg = s.cfg := by
  obtain ⟨b, r, answers⟩ := exec_answers hw s
  cases answers.symm.trans e
  rfl

/-- R57: what was answered stays, and one answer is added. -/
theorem exec_transcript {i : Instr} (hw : i.WellFormed) {s t : State} (e : exec i s = .next t) :
    ∃ r, t.transcript = s.transcript ++ [.answered i r] := by
  obtain ⟨b, r, answers⟩ := exec_answers hw s
  cases answers.symm.trans e
  exact ⟨r, rfl⟩

theorem currentHeader_rem (b : Block) : (currentHeader b).2.rem = b.rem := by
  rw [Block.rem, (currentHeader_frame b).1, (currentHeader_frame b).2]
  rfl

theorem pullPacket_rem_le (b : Block) : (pullPacket b).2.rem ≤ b.rem := by
  rw [Block.rem, (pullPacket_frame b).1]
  exact Nat.sub_le_sub_left (pullPacket_frame b).2 _

/-- An append adds at most its own bytes to the live ones, even with the cursor past the end. -/
theorem receiveChunk_rem_le (c : List Byte) (b : Block) : (receiveChunk c b).rem ≤ b.rem + c.length := by
  simp only [Block.rem, receiveChunk_stream, receiveChunk_cursor, List.length_append]
  omega

/-- R71 for a command: RECEIVE adds live bytes only where there is room, and no other command adds any. -/
theorem exec_withinCap {i : Instr} (hw : i.WellFormed) {s t : State} (within : s.WithinCap) (e : exec i s = .next t) :
    t.WithinCap := by
  intro k finite
  rw [exec_cfg hw e] at finite
  rcases exec_command_block_cases hw e with ⟨c, rfl, -⟩ | peeks | pulls | onlyAnswers
  · rcases exec_receive_cases e with ⟨room, rfl⟩ | ⟨-, rfl⟩
    · exact (receiveChunk_rem_le c s.block).trans ((hasRoom_iff _ _ _).mp room k finite)
    · exact within k finite
  · rw [peeks, currentHeader_rem]
    exact within k finite
  · rw [pulls]
    exact (pullPacket_rem_le s.block).trans (within k finite)
  · rw [onlyAnswers]
    exact within k finite

/-! ### What every step keeps -/

/-- A step, by what the host does: a property of the next state holds if it holds when the host is idle, after a reset
event, and after every command of the port. -/
theorem step_induction {P : State → Prop} {s t : State} (e : step s = .next t) (idle : P s)
    (reset : ∀ rest, s.inputs = .reset :: rest → P (resetEvent { s with inputs := rest }))
    (command : ∀ i rest, i.WellFormed → exec i { s with inputs := rest } = .next t → P t) : P t := by
  rcases step_cases s t e with ⟨-, rfl⟩ | ⟨rest, next, rfl⟩ | ⟨r, rest, -, executed⟩
  · exact idle
  · exact reset rest next
  · exact command _ rest (decodeRequest_wellFormed r) executed

/-- Settles O5. After a reset event the invariants hold as at the start; every command keeps them (`exec_inv`). -/
theorem everyStepKeepsInvariants : Obligations.EveryStepKeepsInvariants := fun s _ hi e =>
  step_induction (P := (·.block.Inv)) e hi (fun _ _ => reset_block_inv) fun _ rest hw executed =>
    exec_inv hw (s := { s with inputs := rest }) hi executed

/-- Settles O7. After a reset event there are no live bytes; every command stays within the capacity
(`exec_withinCap`). -/
theorem everyStepStaysWithinCapacity : Obligations.EveryStepStaysWithinCapacity := fun s _ within e =>
  step_induction e within (fun _ _ c _ => Nat.zero_le c) fun _ rest hw executed =>
    exec_withinCap hw (s := { s with inputs := rest }) within executed

/-- What holds at every start and is kept by every step holds in every reachable state. -/
theorem Reachable.keeps {P : State → Prop} (start : ∀ cfg inputs, P (State.start cfg inputs))
    (step : ∀ s t, P s → Machine.step s = .next t → P t) {s : State} (reachable : Reachable s) : P s := by
  induction reachable with
  | start cfg inputs => exact start cfg inputs
  | step s t _ e ih => exact step s t ih e

/-- Settles O6. O4 is the start, O5 and O7 are the steps. -/
theorem reachableStatesKeepInvariants : Obligations.ReachableStatesKeepInvariants := fun _ reachable =>
  reachable.keeps (P := fun s => s.block.Inv ∧ s.WithinCap) invariantsHoldAtReset.2 fun s t kept e =>
    ⟨everyStepKeepsInvariants s t kept.1 e, everyStepStaysWithinCapacity s t kept.2 e⟩

/-- Settles O12. A command and a reset event each add one entry at the end. -/
theorem answersGivenNeverChange : Obligations.AnswersGivenNeverChange := fun s t e =>
  step_induction (P := (s.transcript <+: ·.transcript)) e ⟨[], List.append_nil _⟩ (fun _ _ => ⟨_, rfl⟩)
    fun _ _ hw executed => by
      obtain ⟨r, answered⟩ := exec_transcript hw executed
      exact ⟨_, answered.symm⟩

/-! ### The stream and the cursor only grow -/

/-- R20: the new stream begins with the old one, and the cursor has not gone back. -/
structure Block.GrowsTo (b b' : Block) : Prop where
  stream : b.stream <+: b'.stream
  cursor : b.cursor ≤ b'.cursor

theorem Block.growsTo_of_append {b b' : Block} {v : List Byte} (stream : b'.stream = b.stream ++ v)
    (cursor : b.cursor ≤ b'.cursor) : b.GrowsTo b' := ⟨⟨v, stream.symm⟩, cursor⟩

theorem Block.growsTo_of_stream_eq {b b' : Block} (stream : b'.stream = b.stream) (cursor : b.cursor ≤ b'.cursor) :
    b.GrowsTo b' := Block.growsTo_of_append (v := []) (by rw [stream, List.append_nil]) cursor

theorem Block.growsTo_refl (b : Block) : b.GrowsTo b := Block.growsTo_of_stream_eq rfl (Nat.le_refl _)

theorem advance_growsTo (n : Nat) (b : Block) : b.GrowsTo (advance n b).2 := by
  rcases advance_spec n b with ⟨-, fails⟩ | ⟨-, moves⟩
  · exact fails ▸ b.growsTo_refl
  · exact moves ▸ Block.growsTo_of_stream_eq rfl (Nat.le_add_right _ _)

/-- R20 for every instruction: the two that append do so at the end, the two that move the cursor move it forward. -/
theorem exec_growsTo {i : Instr} {s t : State} (e : exec i s = .next t) : s.block.GrowsTo t.block := by
  rcases exec_block_cases e with
    ⟨c, -, receives⟩ | ⟨-, peeks⟩ | ⟨-, pulls⟩ | ⟨v, -, ingests⟩ | ⟨n, -, advances⟩ | onlyAnswers
  · rw [receives]
    exact Block.growsTo_of_append (receiveChunk_stream c s.block) (receiveChunk_cursor c s.block).ge
  · rw [peeks]
    exact Block.growsTo_of_stream_eq (currentHeader_frame _).1 (currentHeader_frame _).2.ge
  · rw [pulls]
    exact Block.growsTo_of_stream_eq (pullPacket_frame _).1 (pullPacket_frame _).2
  · rw [ingests]
    exact Block.growsTo_of_append (ingest_stream v s.block) (Nat.le_refl _)
  · exact advances ▸ advance_growsTo n s.block
  · exact onlyAnswers ▸ s.block.growsTo_refl

/-- Settles O8. Every instruction only grows stream and cursor (`exec_growsTo`), and so does a step that is no reset. -/
theorem streamAndCursorOnlyGrow : Obligations.StreamAndCursorOnlyGrow := by
  have spelledOut {b b' : Block} (grows : b.GrowsTo b') :
      b.stream <+: b'.stream ∧ b.stream.length ≤ b'.stream.length ∧ b.cursor ≤ b'.cursor :=
    ⟨grows.stream, grows.stream.length_le, grows.cursor⟩
  refine ⟨fun s t noReset e => spelledOut ?_, fun i s t e => spelledOut (exec_growsTo e)⟩
  refine step_induction (P := fun t => s.block.GrowsTo t.block) e s.block.growsTo_refl (fun rest next => ?_)
    fun _ rest _ executed => exec_growsTo (s := { s with inputs := rest }) executed
  exact absurd (congrArg List.head? next) noReset

/-! ### Every byte of memory -/

/-- R30: the bytes of memory are those of the stream. -/
theorem readByte_of_stream_eq {b b' : Block} (same : b'.stream = b.stream) (a : Nat) :
    b'.readByte a = b.readByte a := by
  rw [Block.readByte, same]
  rfl

/-- An append changes no address outside the appended bytes. -/
theorem ingest_readByte_outside (v : List Byte) (b : Block) {a : Nat}
    (outside : a < appendAddr b ∨ appendAddr b + v.length ≤ a) : (ingest v b).readByte a = b.readByte a := by
  rw [ingest_readByte]
  split
  · rfl
  · next above =>
    have pastOld : b.stream.length ≤ a := Nat.not_lt.mp above
    have pastNew : v.length ≤ a - b.stream.length := by
      rw [appendAddr] at outside
      omega
    rw [List.getElem?_eq_none pastNew, Block.readByte, List.getElem?_eq_none pastOld]

/-- An append stores exactly its bytes, from the append address on. -/
theorem ingest_readByte_inside (v : List Byte) (b : Block) (k : Nat) :
    (ingest v b).readByte (appendAddr b + k) = v[k]? := by
  rw [ingest_readByte, appendAddr, if_neg (Nat.not_lt.mpr (Nat.le_add_right _ _)), Nat.add_sub_cancel_left]

/-- R98: RECEIVE stores what INGEST stores. -/
theorem receiveChunk_readByte (c : List Byte) (b : Block) (a : Nat) :
    (receiveChunk c b).readByte a = (ingest c b).readByte a :=
  readByte_of_stream_eq (by rw [receiveChunk_stream, ingest_stream]) a

/-- R36: an instruction that is neither RECEIVE nor INGEST leaves the stream (O9). -/
theorem exec_stream_of_reader {i : Instr} {s t : State} (e : exec i s = .next t) (noReceive : ∀ c, i ≠ .receive c)
    (noIngest : ∀ v, i ≠ .ingest v) : t.block.stream = s.block.stream := by
  obtain ⟨owners, -, -⟩ := onlyOwnersWriteState i s t e
  by_contra changed
  rcases owners changed with ⟨c, rfl⟩ | ⟨v, rfl⟩
  · exact noReceive c rfl
  · exact noIngest v rfl

/-- Settles O10. The commands that read leave the stream; INGEST and a RECEIVE with room append; a refused RECEIVE only
answers. -/
theorem everyByteOutsideTheAppendUnchanged : Obligations.EveryByteOutsideTheAppendUnchanged := by
  refine ⟨fun i s t e noReceive noIngest a => ?readers, fun v s t e => ?ingest, fun c s t e => ?receive⟩
  case readers => exact readByte_of_stream_eq (exec_stream_of_reader e noReceive noIngest) a
  case ingest =>
    rw [exec_ingest] at e
    cases e
    exact ⟨fun a outside => ingest_readByte_outside v s.block outside, fun k _ => ingest_readByte_inside v s.block k⟩
  case receive =>
    rcases exec_receive_cases e with ⟨room, rfl⟩ | ⟨full, rfl⟩
    · refine ⟨fun a outside => ?_, fun _ k _ => ?_, fun full => nomatch full.symm.trans room⟩
      · exact (receiveChunk_readByte c s.block a).trans (ingest_readByte_outside c s.block outside)
      · exact (receiveChunk_readByte c s.block _).trans (ingest_readByte_inside c s.block k)
    · exact ⟨fun _ _ => rfl, fun room => absurd (full.symm.trans room) Bool.false_ne_true, fun _ _ => rfl⟩

end Sys2Proof.Machine

/-! PROOFS. 43_packet_extractor.md: the account of the bytes fed and handed out (R107). -/

namespace Sys2Proof.Machine

/-- A command that moves nothing, feeds nothing and hands nothing out keeps the account. -/
theorem State.Accounted.respond {s : State} (account : s.Accounted) {b : Block} {i : Instr} {r : Response}
    (stream : b.stream = s.block.stream) (cursor : b.cursor = s.block.cursor)
    (feedsNothing : ∀ acc, fedBytes acc [.answered i r] = acc)
    (handsNothing : ∀ acc, handedPackets acc [.answered i r] = acc) : ((s.withBlock b).respond i r).Accounted := by
  refine ⟨?_, ?_⟩
  · simpa [fedBytes_snoc, feedsNothing, stream] using account.fed
  · simpa [handedPackets_snoc, handsNothing, stream, cursor] using account.handed

/-- R98: RECEIVE feeds its chunk, behind the consumed bytes. -/
theorem State.Accounted.receive {s : State} (account : s.Accounted) (inside : s.block.cursor ≤ s.block.stream.length)
    (c : List Byte) : ((s.withBlock (receiveChunk c s.block)).respond (.receive c) .accepted).Accounted := by
  refine ⟨?_, ?_⟩
  · simp [fedBytes_snoc, fedBytes, ← account.fed]
  · simp [handedPackets_snoc, handedPackets, ← account.handed, List.take_append_of_le_length inside]

/-- R101: a pull hands out the bytes it steps past, or moves nothing. -/
theorem State.Accounted.pullPacket {s : State} (account : s.Accounted) :
    ((s.withBlock (pullPacket s.block).2).respond .pullPacket (pullPacket s.block).1).Accounted := by
  rcases pullPacket_cases s.block with ⟨-, pulls⟩ | ⟨h, b, found, -, pulls⟩ | ⟨h, b, -, -, pulls⟩ <;> rw [pulls]
  · exact account.respond rfl rfl (fun _ => rfl) fun _ => rfl
  · obtain ⟨stream, cursor, -, -⟩ := ensureHeader_frame found
    exact account.respond stream cursor (fun _ => rfl) fun _ => rfl
  · refine ⟨?_, ?_⟩
    · simpa [fedBytes_snoc, fedBytes] using account.fed
    · simp [handedPackets_snoc, handedPackets, ← account.handed, List.take_add, Block.live]

/-- R107 for a command: only RECEIVE feeds, and only PULL_PACKET hands out. -/
theorem exec_accounted {i : Instr} (hw : i.WellFormed) {s t : State} (inside : s.block.cursor ≤ s.block.stream.length)
    (account : s.Accounted) (e : exec i s = .next t) : t.Accounted := by
  cases i with
  | receive c =>
    rcases exec_receive_cases e with ⟨-, rfl⟩ | ⟨-, rfl⟩
    · exact account.receive inside c
    · exact account.respond (b := s.block) rfl rfl (fun _ => rfl) fun _ => rfl
  | currentHeader =>
    cases e
    obtain ⟨stream, cursor⟩ := currentHeader_frame s.block
    exact account.respond stream cursor (fun _ => rfl) fun _ => rfl
  | pullPacket =>
    cases e
    exact account.pullPacket
  | ingest v => cases hw
  | advance n => cases hw
  | _ =>
    cases e
    exact account.respond (b := s.block) rfl rfl (fun _ => rfl) fun _ => rfl

theorem start_accounted (cfg : Config) (inputs : List Input) : (State.start cfg inputs).Accounted := ⟨rfl, rfl⟩

/-- R140: nothing was fed or handed out since the reset event. -/
theorem resetEvent_accounted (s : State) : (resetEvent s).Accounted := by
  refine ⟨?_, ?_⟩
  · simp [fedBytes_snoc, fedBytes]
  · simp [handedPackets_snoc, handedPackets]

/-- Settles O49. The account begins again with a reset event, and every command keeps it (`exec_accounted`). -/
theorem everyStepKeepsTheAccount : Obligations.EveryStepKeepsTheAccount := fun s _ inside account e =>
  step_induction e account (fun _ _ => resetEvent_accounted _) fun _ rest hw executed =>
    exec_accounted hw (s := { s with inputs := rest }) inside ⟨account.fed, account.handed⟩ executed

/-- Settles O50. Every reachable state keeps the account (O49, with R16 of O5), and the stream is its consumed part and
then the live bytes. -/
theorem everyFedByteOnceAndInOrder : Obligations.EveryFedByteOnceAndInOrder := by
  intro s reachable
  obtain ⟨-, account⟩ : s.block.Inv ∧ s.Accounted :=
    reachable.keeps (P := fun s => s.block.Inv ∧ s.Accounted)
      (fun cfg inputs => ⟨reset_block_inv, start_accounted cfg inputs⟩) fun s t kept e =>
        ⟨everyStepKeepsInvariants s t kept.1 e, everyStepKeepsTheAccount s t kept.1.cursor_le kept.2 e⟩
  rw [← account.handed, ← account.fed, Block.live, List.take_append_drop]

end Sys2Proof.Machine

/-! PROOFS. 70_reset_and_hazards.md: the states a finite capacity wedges in (R151). -/

namespace Sys2Proof.Machine

theorem State.Wedged.headerReady {s : State} (wedged : s.Wedged) : s.block.st = .headerReady := by
  obtain ⟨h, cached, -⟩ := wedged.header
  exact wedged.inv.ready_iff.mpr (by rw [cached]; rfl)

/-- R151: a wedged block has a header and never its whole packet, so a pull leaves it as it is. -/
theorem State.Wedged.pullPacket {s : State} (wedged : s.Wedged) : pullPacket s.block = (.absent, s.block) := by
  obtain ⟨h, cached, k, finite, tooSmall⟩ := wedged.header
  exact pullPacket_of_partial (ensureHeader_cached wedged.headerReady cached)
    ((wedged.within k finite).trans_lt tooSmall)

/-- No command of the port drops the header of a wedged block. -/
theorem State.Wedged.exec_hdr {s t : State} (wedged : s.Wedged) {i : Instr} (hw : i.WellFormed)
    (e : exec i s = .next t) : t.block.hdr = s.block.hdr := by
  rcases exec_command_block_cases hw e with ⟨c, -, receives⟩ | peeks | pulls | onlyAnswers
  · rw [receives, receiveChunk_of_ne_exhausted (by rw [wedged.headerReady]; decide), ingest_hdr]
  · obtain ⟨h, cached, -⟩ := wedged.header
    rw [peeks, currentHeader, ensureHeader_cached wedged.headerReady cached]
  · rw [pulls, wedged.pullPacket]
  · rw [onlyAnswers]

/-- No command of the port hands a packet out of a wedged block. -/
theorem State.Wedged.exec_handedPackets {s t : State} (wedged : s.Wedged) {i : Instr} (hw : i.WellFormed)
    (e : exec i s = .next t) : handedPackets [] t.transcript = handedPackets [] s.transcript := by
  obtain ⟨r, answered⟩ := exec_transcript hw e
  rw [answered, handedPackets_snoc]
  cases i with
  | pullPacket =>
    rw [exec_pullPacket, wedged.pullPacket] at e
    cases e
    cases List.append_cancel_left answered
    rfl
  | _ => rfl

theorem State.Wedged.exec_wedged {s t : State} (wedged : s.Wedged) {i : Instr} (hw : i.WellFormed)
    (e : exec i s = .next t) : t.Wedged := by
  refine ⟨exec_inv hw wedged.inv e, exec_withinCap hw wedged.within e, ?_⟩
  rw [wedged.exec_hdr hw e, exec_cfg hw e]
  exact wedged.header

/-- Settles O54. An idle step changes nothing, and a command keeps the header, which is what wedges the block, and hands
nothing out. -/
theorem smallCapacityWedgesUntilReset : Obligations.SmallCapacityWedgesUntilReset := by
  intro s t wedged noReset e
  refine step_induction (P := fun t => t.Wedged ∧ handedPackets [] t.transcript = handedPackets [] s.transcript) e
    ⟨wedged, rfl⟩ (fun rest next => absurd (congrArg List.head? next) noReset) fun i rest hw executed => ?_
  have taken : ({ s with inputs := rest } : State).Wedged := ⟨wedged.inv, wedged.within, wedged.header⟩
  exact ⟨taken.exec_wedged hw executed, taken.exec_handedPackets hw executed⟩

/-- Settles O55. No packet is longer than 65542 bytes (`totalLen_max`). -/
theorem largeCapacityNeverWedges : Obligations.LargeCapacityNeverWedges := by
  intro s large wedged
  obtain ⟨h, -, k, finite, tooSmall⟩ := wedged.header
  have longest : totalLen h ≤ 65542 := totalLen_max h
  have := large k finite
  omega

end Sys2Proof.Machine

/-! PROOFS. 43_packet_extractor.md section 6: the block as a machine over its live bytes (R12, R24, R106). `liveAnswer`
is that machine, `exec_liveAnswer` says that the block follows it; what a command answers is then read off
`liveAnswer`. -/

namespace Sys2Proof.Machine

/-! ### Framing by the header at the front -/

theorem frameOne_of_short {bytes : List Byte} {h : Header} (starts : StartsWithHeader bytes h)
    (short : bytes.length < totalLen h) : frameOne bytes = none := by
  rw [frameOne_eq, (startsWithHeader_iff _ _).mp starts]
  exact if_pos short

theorem frameOne_of_whole {bytes : List Byte} {h : Header} (starts : StartsWithHeader bytes h)
    (whole : totalLen h ≤ bytes.length) :
    frameOne bytes = some (bytes.take (totalLen h), bytes.drop (totalLen h)) := by
  rw [frameOne_eq, (startsWithHeader_iff _ _).mp starts]
  exact if_neg (Nat.not_lt.mpr whole)

theorem frameOne_of_few {bytes : List Byte} (few : bytes.length < 6) : frameOne bytes = none := by
  rw [frameOne_eq, headerOf_none few]

/-- R107: a framed packet has the length its header says. -/
theorem header_of_frameOne {bytes p rest : List Byte} (e : frameOne bytes = some (p, rest)) :
    ∃ h, StartsWithHeader bytes h ∧ p.length = totalLen h := by
  rw [frameOne_eq] at e
  cases starts : headerOf bytes with
  | none => rw [starts] at e; cases e
  | some h =>
    rw [starts] at e
    dsimp only at e
    split at e
    · cases e
    · next whole =>
      cases e
      exact ⟨h, (startsWithHeader_iff _ _).mpr starts, List.length_take_of_le (Nat.not_lt.mp whole)⟩

/-! ### The machine over the live bytes -/

/-- A block that holds some bytes, all of them live, and has done nothing with them yet. -/
def Block.fresh (bytes : List Byte) : Block where
  stream := bytes
  cursor := 0
  st := .empty
  hdr := none

theorem Block.fresh_rem (bytes : List Byte) : (Block.fresh bytes).rem = bytes.length := rfl

/-- R106: what a command answers with these live bytes, and the live bytes it leaves. The internal steps are no commands
and answer nothing; they stand here with an answer of no meaning. -/
def liveAnswer (cfg : Config) (live : List Byte) : Instr → Response × List Byte
  | .receive c => if hasRoom cfg (Block.fresh live) c.length then (.accepted, live ++ c) else (.full, live)
  | .currentHeader => ((headerOf live).elim .absent .header, live)
  | .pullPacket => (frameOne live).elim (.absent, live) fun packet => (.bytes packet.1, packet.2)
  | .remaining => (.count live.length, live)
  | .peek off len => (if off + len ≤ live.length then .bytes ((live.drop off).take len) else .absent, live)
  | .decode slice => (.header (decodeSlice slice), live)
  | .resolve => (.order .big, live)
  | .reserved7 => (.illegal, live)
  | .ingest _ => (.illegal, live)
  | .advance _ => (.illegal, live)

/-- R71: the capacity test is about the live bytes alone. -/
theorem hasRoom_fresh_live (cfg : Config) (b : Block) (n : Nat) :
    hasRoom cfg (Block.fresh b.live) n = hasRoom cfg b n := by
  rw [Bool.eq_iff_iff, hasRoom_iff, hasRoom_iff, Block.fresh_rem, Block.live_length]

theorem currentHeader_answer {b : Block} (hi : b.Inv) :
    (currentHeader b).1 = (headerOf b.live).elim .absent .header := by
  rw [currentHeader_of_inv hi]
  cases headerOf b.live <;> rfl

/-- R101 on the live bytes: a pull is the framing of one packet. -/
theorem pullPacket_answer {b : Block} (hi : b.Inv) : ((pullPacket b).1, (pullPacket b).2.live) =
    (frameOne b.live).elim (.absent, b.live) fun packet => (.bytes packet.1, packet.2) := by
  rcases pullPacket_frames hi with ⟨unframed, absent, live, -⟩ | ⟨p, rest, first, handed, live⟩
  · rw [unframed, absent, live]; rfl
  · rw [first, handed, live]; rfl

theorem peekBytes_answer (off len : Nat) (b : Block) : peekBytes off len b =
    if off + len ≤ b.live.length then .bytes ((b.live.drop off).take len) else .absent := by
  rw [Block.live_length]
  split
  · next enough => rw [peekBytes_present enough, memRead_offset]
  · next short => exact peekBytes_absent (Nat.not_le.mp short)

/-- The simulation for one command: what it answers and the live bytes it leaves are those of `liveAnswer`. -/
theorem exec_liveAnswer {i : Instr} (hw : i.WellFormed) {s : State} (hi : s.block.Inv) :
    ∃ b r, exec i s = .next ((s.withBlock b).respond i r) ∧ (r, b.live) = liveAnswer s.cfg s.block.live i := by
  cases i with
  | receive c =>
    cases room : hasRoom s.cfg s.block c.length with
    | true =>
      refine ⟨_, _, exec_receive_room c s room, ?_⟩
      rw [liveAnswer, hasRoom_fresh_live, room, receiveChunk_live hi]
      rfl
    | false =>
      refine ⟨s.block, _, exec_receive_full c s room, ?_⟩
      rw [liveAnswer, hasRoom_fresh_live, room]
      rfl
  | currentHeader =>
    refine ⟨_, _, exec_currentHeader s, ?_⟩
    rw [liveAnswer, currentHeader_answer hi, currentHeader_live]
  | pullPacket => exact ⟨_, _, exec_pullPacket s, pullPacket_answer hi⟩
  | remaining =>
    refine ⟨s.block, _, exec_remaining s, ?_⟩
    rw [liveAnswer, Block.live_length]
  | peek off len =>
    refine ⟨s.block, _, exec_peek off len s, ?_⟩
    rw [liveAnswer, peekBytes_answer]
  | decode slice => exact ⟨s.block, _, exec_decode slice s, rfl⟩
  | resolve => exact ⟨s.block, _, exec_resolve s, rfl⟩
  | reserved7 => exact ⟨s.block, _, exec_reserved7 s, rfl⟩
  | ingest v => cases hw
  | advance n => cases hw

/-- An instruction that was answered is a command of the port: an internal step answers nothing. -/
theorem wellFormed_of_answered {i : Instr} {s t : State} {r : Response} (e : exec i s = .next t)
    (answered : t.transcript = s.transcript ++ [.answered i r]) : i.WellFormed := by
  cases i with
  | ingest v => cases e; simp at answered
  | advance n => cases e; simp at answered
  | _ => rfl

/-- What was answered, and the live bytes left, are those of `liveAnswer`. -/
theorem answered_liveAnswer {i : Instr} {s t : State} {r : Response} (hi : s.block.Inv) (e : exec i s = .next t)
    (answered : t.transcript = s.transcript ++ [.answered i r]) :
    (r, t.block.live) = liveAnswer s.cfg s.block.live i := by
  obtain ⟨b, r', answers, live⟩ := exec_liveAnswer (wellFormed_of_answered e answered) hi
  cases answers.symm.trans e
  cases List.append_cancel_left answered
  exact live

theorem answered_eq {i : Instr} {s t : State} {r r' : Response} {live' : List Byte} (hi : s.block.Inv)
    (e : exec i s = .next t) (answered : t.transcript = s.transcript ++ [.answered i r])
    (known : liveAnswer s.cfg s.block.live i = (r', live')) : r = r' ∧ t.block.live = live' :=
  Prod.mk.inj ((answered_liveAnswer hi e answered).trans known)

/-! ### The answers one by one -/

theorem liveAnswer_receive_of_room {cfg : Config} {live c : List Byte}
    (fits : ∀ k, cfg.cap = some k → live.length + c.length ≤ k) :
    liveAnswer cfg live (.receive c) = (.accepted, live ++ c) :=
  if_pos ((hasRoom_iff _ _ _).mpr fits)

theorem liveAnswer_receive_of_full {cfg : Config} {live c : List Byte} {k : Nat} (finite : cfg.cap = some k)
    (excess : k < live.length + c.length) : liveAnswer cfg live (.receive c) = (.full, live) := by
  rw [liveAnswer, hasRoom_eq_false finite excess]
  rfl

theorem liveAnswer_currentHeader_of_starts (cfg : Config) {live : List Byte} {h : Header}
    (starts : StartsWithHeader live h) : liveAnswer cfg live .currentHeader = (.header h, live) := by
  rw [liveAnswer, (startsWithHeader_iff _ _).mp starts]
  rfl

theorem liveAnswer_currentHeader_of_few (cfg : Config) {live : List Byte} (few : live.length < 6) :
    liveAnswer cfg live .currentHeader = (.absent, live) := by
  rw [liveAnswer, headerOf_none few]
  rfl

theorem liveAnswer_pullPacket_of_framed (cfg : Config) {live p rest : List Byte}
    (first : frameOne live = some (p, rest)) : liveAnswer cfg live .pullPacket = (.bytes p, rest) := by
  rw [liveAnswer, first]
  rfl

theorem liveAnswer_pullPacket_of_unframed (cfg : Config) {live : List Byte} (unframed : frameOne live = none) :
    liveAnswer cfg live .pullPacket = (.absent, live) := by
  rw [liveAnswer, unframed]
  rfl

theorem liveAnswer_peek_of_enough (cfg : Config) {live : List Byte} {off len : Nat} (enough : off + len ≤ live.length) :
    liveAnswer cfg live (.peek off len) = (.bytes ((live.drop off).take len), live) := by
  rw [liveAnswer, if_pos enough]

theorem liveAnswer_peek_of_short (cfg : Config) {live : List Byte} {off len : Nat} (short : live.length < off + len) :
    liveAnswer cfg live (.peek off len) = (.absent, live) := by
  rw [liveAnswer, if_neg (Nat.not_le.mpr short)]

/-- Six bytes are a header. -/
theorem startsWithHeader_of_length {bytes : List Byte} (six : 6 ≤ bytes.length) : ∃ h, StartsWithHeader bytes h := by
  obtain ⟨h, starts⟩ := headerOf_exists six
  exact ⟨h, (startsWithHeader_iff _ _).mpr starts⟩

/-- Settles O45. Each clause is the equation of `liveAnswer` for its command. -/
theorem answersFromLiveBytes : Obligations.AnswersFromLiveBytes := by
  intro i s t r hi e answered
  have answer {r' : Response} {live' : List Byte} (known : liveAnswer s.cfg s.block.live i = (r', live')) :
      r = r' ∧ t.block.live = live' := answered_eq hi e answered known
  refine ⟨?remaining, ?peek, ?currentHeader, ?pullPacket, ?receive⟩
  case remaining =>
    rintro rfl
    exact answer rfl
  case peek =>
    rintro off len rfl
    exact (answer rfl).symm
  case currentHeader =>
    rintro rfl
    exact ⟨(answer rfl).2, fun h starts => (answer (liveAnswer_currentHeader_of_starts _ starts)).1,
      fun few => (answer (liveAnswer_currentHeader_of_few _ few)).1⟩
  case pullPacket =>
    rintro rfl
    exact ⟨fun h starts whole => answer (liveAnswer_pullPacket_of_framed _ (frameOne_of_whole starts whole)),
      fun h starts short => answer (liveAnswer_pullPacket_of_unframed _ (frameOne_of_short starts short)),
      fun few => answer (liveAnswer_pullPacket_of_unframed _ (frameOne_of_few few))⟩
  case receive =>
    rintro c rfl unbounded
    exact answer (liveAnswer_receive_of_room (by simp [unbounded]))

/-- Settles O20. The status is that of the answer, which `liveAnswer` gives from the live bytes that `rem()` counts. -/
theorem statusConditions : Obligations.StatusConditions := by
  intro i s t r hi e answered
  have status {r' : Response} {live' : List Byte} (known : liveAnswer s.cfg s.block.live i = (r', live')) :
      r.status = r'.status := by rw [(answered_eq hi e answered known).1]
  rw [← Block.live_length]
  refine ⟨?receive, ?currentHeader, ?pullPacket, ?remaining, ?peek, ?decode, ?resolve, ?reserved7⟩
  case receive =>
    rintro c rfl
    exact ⟨fun fits => status (liveAnswer_receive_of_room fits),
      fun k finite excess => status (liveAnswer_receive_of_full finite excess)⟩
  case currentHeader =>
    rintro rfl
    refine ⟨fun six => ?_, fun few => status (liveAnswer_currentHeader_of_few _ few)⟩
    obtain ⟨h, starts⟩ := startsWithHeader_of_length six
    exact status (liveAnswer_currentHeader_of_starts _ starts)
  case pullPacket =>
    rintro rfl
    exact ⟨fun h starts whole => status (liveAnswer_pullPacket_of_framed _ (frameOne_of_whole starts whole)),
      fun h starts short => status (liveAnswer_pullPacket_of_unframed _ (frameOne_of_short starts short)),
      fun few => status (liveAnswer_pullPacket_of_unframed _ (frameOne_of_few few))⟩
  case remaining => rintro rfl; exact status rfl
  case peek =>
    rintro off len rfl
    exact ⟨fun enough => status (liveAnswer_peek_of_enough _ enough),
      fun short => status (liveAnswer_peek_of_short _ short)⟩
  case decode => rintro slice rfl; exact status rfl
  case resolve => rintro rfl; exact status rfl
  case reserved7 => rintro rfl; exact status rfl

/-- R91: the two commands that answer a header have it from the decoder. -/
theorem endianness_of_liveAnswer {cfg : Config} {live : List Byte} {i : Instr} {h : Header}
    (answer : (liveAnswer cfg live i).1 = .header h) : h.endianness = .big := by
  cases i with
  | receive c =>
    rw [liveAnswer] at answer
    split at answer <;> cases answer
  | currentHeader =>
    rw [liveAnswer] at answer
    cases decoded : headerOf live with
    | none => rw [decoded] at answer; cases answer
    | some x =>
      rw [decoded] at answer
      cases answer
      exact decodeHdrSeq_endianness decoded
  | pullPacket =>
    rw [liveAnswer] at answer
    cases first : frameOne live <;> rw [first] at answer <;> cases answer
  | peek off len =>
    rw [liveAnswer] at answer
    dsimp only at answer
    split at answer <;> cases answer
  | decode slice => cases answer; rfl
  | _ => cases answer

/-- Settles O35. What was answered is what `liveAnswer` gives, and its headers come from the decoder. -/
theorem returnedHeadersCarryTheByteOrder : Obligations.ReturnedHeadersCarryTheByteOrder := by
  intro i s t h hi e answered
  have answer := congrArg Prod.fst (answered_liveAnswer hi e answered)
  exact ⟨endianness_of_liveAnswer answer.symm, rfl⟩

/-- Settles O40. A pull is the framing of one packet, and a framed packet is the front of the live bytes, as long as its
header says. -/
theorem pullConsumesExactlyOnePacket : Obligations.PullConsumesExactlyOnePacket := by
  intro s t hi e
  obtain ⟨r, answered⟩ := exec_transcript rfl e
  rw [← t.block.live_length, ← s.block.live_length]
  cases first : frameOne s.block.live with
  | none =>
    obtain ⟨rfl, live⟩ := answered_eq hi e answered (liveAnswer_pullPacket_of_unframed _ first)
    exact .inl ⟨answered, by rw [live]⟩
  | some packet =>
    obtain ⟨p, rest⟩ := packet
    obtain ⟨rfl, live⟩ := answered_eq hi e answered (liveAnswer_pullPacket_of_framed _ first)
    obtain ⟨h, starts, length⟩ := header_of_frameOne first
    have front : s.block.live.length = p.length + rest.length := by
      rw [(frameOne_some first).1, List.length_append]
    exact .inr ⟨h, p, starts, answered, length, by omega, by rw [live]; omega⟩

/-! ### Two blocks with the same live bytes -/

/-- R106: two states that agree on what a host can learn of them. -/
structure State.Alike (s t : State) : Prop where
  inv_left : s.block.Inv
  inv_right : t.block.Inv
  cfg_eq : s.cfg = t.cfg
  live_eq : s.block.live = t.block.live

/-- A command is answered alike by states that are alike, and leaves them alike: both follow `liveAnswer`. -/
theorem exec_alike {i : Instr} (hw : i.WellFormed) {s t : State} (alike : s.Alike t) :
    ∃ s' t' r, exec i s = .next s' ∧ exec i t = .next t' ∧ s'.transcript = s.transcript ++ [.answered i r] ∧
      t'.transcript = t.transcript ++ [.answered i r] ∧ s'.Alike t' := by
  obtain ⟨b, r, left, live⟩ := exec_liveAnswer hw alike.inv_left
  obtain ⟨b', r', right, live'⟩ := exec_liveAnswer hw alike.inv_right
  rw [← alike.cfg_eq, ← alike.live_eq, ← live] at live'
  obtain ⟨rfl, same⟩ := Prod.mk.inj live'
  exact ⟨_, _, r', left, right, rfl, rfl, exec_inv hw alike.inv_left left, exec_inv hw alike.inv_right right,
    alike.cfg_eq, same.symm⟩

theorem execAll_cons_of_next {i : Instr} {s t : State} (e : exec i s = .next t) (is : List Instr) :
    execAll (i :: is) s = execAll is t := by
  rw [execAll, e]

/-- Settles O46, by induction on the commands: each leaves the two states alike (`exec_alike`). -/
theorem responsesRevealOnlyLiveBytes : Obligations.ResponsesRevealOnlyLiveBytes := by
  intro is s t hw invLeft invRight cfg live
  have alike : s.Alike t := ⟨invLeft, invRight, cfg, live⟩
  clear invLeft invRight cfg live
  induction is generalizing s t with
  | nil => exact ⟨s, t, [], rfl, rfl, (List.append_nil _).symm, (List.append_nil _).symm, rfl, alike.live_eq⟩
  | cons i is ih =>
    obtain ⟨first, others⟩ := List.forall_mem_cons.mp hw
    obtain ⟨s1, t1, r, left, right, answeredLeft, answeredRight, alike1⟩ := exec_alike first alike
    obtain ⟨s', t', events, ranLeft, ranRight, logLeft, logRight, length, live⟩ := ih s1 t1 others alike1
    refine ⟨s', t', .answered i r :: events, ?_, ?_, ?_, ?_, congrArg (· + 1) length, live⟩
    · rw [execAll_cons_of_next left, ranLeft]
    · rw [execAll_cons_of_next right, ranRight]
    · rw [logLeft, answeredLeft, List.append_assoc, List.singleton_append]
    · rw [logRight, answeredRight, List.append_assoc, List.singleton_append]

/-! ### The drain loop -/

/-- Settles O47: it is `frame_append`, an induction on the framed packets. -/
theorem framingIsStableUnderAppend : Obligations.FramingIsStableUnderAppend := frame_append

/-- Settles O48, by induction on the number of framed packets: a pull hands the first of them out and leaves the others
framed; with none framed it answers `NONE` and leaves the tail. -/
theorem drainHandsOutTheFramedPackets : Obligations.DrainHandsOutTheFramedPackets := by
  intro s hi
  induction packets : (frame s.block.live).1 generalizing s with
  | nil =>
    rcases pullPacket_frames hi with ⟨unframed, absent, live, st⟩ | ⟨p, rest, first, -, -⟩
    · rw [frame_of_frameOne_none unframed]
      exact ⟨_, execAll_cons_of_next (exec_pullPacket s) [], by simp [absent], live, st⟩
    · rw [frame_of_frameOne_some first] at packets
      cases packets
  | cons q others ih =>
    rcases pullPacket_frames hi with ⟨unframed, -, -, -⟩ | ⟨p, rest, first, handed, live⟩
    · rw [frame_of_frameOne_none unframed] at packets
      cases packets
    · rw [frame_of_frameOne_some first] at packets ⊢
      cases packets
      obtain ⟨t, ran, log, tail, st⟩ := ih
        ((s.withBlock (pullPacket s.block).2).respond .pullPacket (pullPacket s.block).1) (pullPacket_inv hi)
        (by rw [State.respond_block, State.withBlock_block, live])
      rw [State.respond_block, State.withBlock_block, live] at tail st
      refine ⟨t, (execAll_cons_of_next (exec_pullPacket s) _).trans ran, ?_, tail, st⟩
      simp [log, handed]

end Sys2Proof.Machine

/-! PROOFS. 43_packet_extractor.md section 6: feeding in chunks (R105). -/

namespace Sys2Proof.Machine

/-- R105 on the block: two RECEIVEs are one of the joined bytes. A header decoded after the first of them is still the
one at the front of the live bytes after the second (R44). -/
theorem receiveChunk_receiveChunk (a b : List Byte) (blk : Block) :
    receiveChunk b (receiveChunk a blk) = receiveChunk (a ++ b) blk := by
  by_cases exhausted : blk.st = .exhausted
  · cases decoded : headerOf (ingest a blk).live with
    | none =>
      have first : receiveChunk a blk = ingest a blk := by
        rw [receiveChunk_of_exhausted exhausted, decoded]; rfl
      rw [first, receiveChunk_of_exhausted exhausted, receiveChunk_of_exhausted (b := ingest a blk) exhausted,
        ingest_ingest]
    | some h =>
      have first : receiveChunk a blk = cacheHeader h (ingest a blk) := by
        rw [receiveChunk_of_exhausted exhausted, decoded]; rfl
      have six : 6 ≤ (ingest a blk).live.length := by rw [← headerOf_isSome, decoded]; rfl
      have inside : (ingest a blk).cursor ≤ (ingest a blk).stream.length := by
        rw [Block.live, List.length_drop] at six
        omega
      have still : headerOf (ingest (a ++ b) blk).live = some h := by
        rw [← ingest_ingest, ingest_live b _ inside, headerOf_append b six, decoded]
      rw [first, receiveChunk_of_ne_exhausted (by simp), receiveChunk_of_exhausted exhausted, still, ingest_eq b,
        ← ingest_ingest, ingest_eq b]
      rfl
  · have first := receiveChunk_of_ne_exhausted exhausted a
    rw [first, receiveChunk_of_ne_exhausted exhausted, receiveChunk_of_ne_exhausted (b := ingest a blk) exhausted,
      ingest_ingest]

/-- An empty chunk changes nothing in a block that keeps the invariants: in `Exhausted` there are still too few bytes
(R19). -/
theorem receiveChunk_nil {b : Block} (hi : b.Inv) : receiveChunk [] b = b := by
  have same : ingest [] b = b := by rw [ingest_eq, List.append_nil]
  by_cases exhausted : b.st = .exhausted
  · rw [receiveChunk_of_exhausted exhausted, same, headerOf_live_none (hi.exhausted_few exhausted)]
    rfl
  · rw [receiveChunk_of_ne_exhausted exhausted, same]

theorem hasRoom_of_unbounded {cfg : Config} (unbounded : cfg.cap = none) (b : Block) (n : Nat) :
    hasRoom cfg b n = true := by
  rw [hasRoom, unbounded]

/-- RECEIVEs of chunks, one after another, with unbounded `CAP`. -/
theorem execAll_receives (chunks : List (List Byte)) {s : State} (unbounded : s.cfg.cap = none) :
    ∃ t, execAll (chunks.map .receive) s = .next t ∧
      t.block = chunks.foldl (fun b c => receiveChunk c b) s.block := by
  induction chunks generalizing s with
  | nil => exact ⟨s, rfl, rfl⟩
  | cons c chunks ih =>
    have received := exec_receive_room c s (hasRoom_of_unbounded unbounded _ _)
    obtain ⟨t, ran, block⟩ := ih (s := (s.withBlock (receiveChunk c s.block)).respond (.receive c) .accepted) unbounded
    exact ⟨t, (execAll_cons_of_next received _).trans ran, block⟩

/-- R105 on the block, for any split into chunks. -/
theorem foldl_receiveChunk (c : List Byte) (chunks : List (List Byte)) (b : Block) :
    (c :: chunks).foldl (fun b c => receiveChunk c b) b = receiveChunk (c :: chunks).flatten b := by
  induction chunks generalizing c with
  | nil => rw [List.flatten_cons, List.flatten_nil, List.append_nil]; rfl
  | cons d chunks ih =>
    have joined := ih (c ++ d)
    rw [List.foldl_cons, ← receiveChunk_receiveChunk] at joined
    rw [List.foldl_cons, List.foldl_cons, joined, List.flatten_cons, List.flatten_cons, List.flatten_cons,
      List.append_assoc]

/-- With unbounded `CAP` a list of chunks, one at least, leaves the block that their bytes in one chunk leave. -/
theorem block_of_chunks {c : List Byte} {chunks : List (List Byte)} {s t u : State} (unbounded : s.cfg.cap = none)
    (chunked : execAll ((c :: chunks).map .receive) s = .next t)
    (whole : exec (.receive (c :: chunks).flatten) s = .next u) : t.block = u.block := by
  obtain ⟨t', ran, block⟩ := execAll_receives (c :: chunks) unbounded
  cases ran.symm.trans chunked
  cases (exec_receive_room _ s (hasRoom_of_unbounded unbounded _ _)).symm.trans whole
  rw [block, foldl_receiveChunk]
  rfl

/-- Settles O43. The first clause is the second for two chunks. -/
theorem chunkingDoesNotMatter : Obligations.ChunkingDoesNotMatter := by
  refine ⟨fun a b s t u unbounded chunked whole => ?_, fun c cs s t u => block_of_chunks⟩
  have joined : [a, b].flatten = a ++ b := by rw [List.flatten_cons, List.flatten_singleton]
  exact block_of_chunks (chunks := [b]) unbounded chunked (joined ▸ whole)

/-- The bytes of a sequence as chunks of one byte each. -/
theorem feedBytewise_eq (bytes : List Byte) : feedBytewise bytes = (bytes.map ([·])).map .receive := by
  rw [feedBytewise, List.map_map]
  rfl

/-- Settles O44. Single bytes are a split into chunks (O43), but for the empty sequence, where the one empty chunk
changes nothing (`receiveChunk_nil`). -/
theorem bytewiseFeedingIsTheSame : Obligations.BytewiseFeedingIsTheSame := by
  intro bytes s unbounded hi
  have whole := exec_receive_room bytes s (hasRoom_of_unbounded unbounded _ _)
  obtain ⟨u, bytewise, -⟩ := execAll_receives (bytes.map ([·])) unbounded
  rw [← feedBytewise_eq] at bytewise
  refine ⟨_, u, execAll_cons_of_next whole [], bytewise, ?_⟩
  rw [feedBytewise_eq] at bytewise
  cases bytes with
  | nil =>
    cases bytewise
    exact receiveChunk_nil hi
  | cons x bytes =>
    refine (block_of_chunks unbounded bytewise ?_).symm
    have joined : ([x] :: bytes.map ([·])).flatten = x :: bytes := List.flatMap_singleton' (x :: bytes)
    rw [joined]
    exact whole

end Sys2Proof.Machine

/-! PROOFS. 43_packet_extractor.md: CURRENT_HEADER again (R100), the transition table (R103), and an incomplete packet
that is completed (R104). -/

namespace Sys2Proof.Machine

/-! ### CURRENT_HEADER is a peek -/

/-- The header that was found is cached, and so found again, with no further change. -/
theorem ensureHeader_again {b b1 : Block} {h : Header} (found : ensureHeader b = some (h, b1)) :
    ensureHeader b1 = some (h, b1) := by
  obtain ⟨-, -, ready, cached⟩ := ensureHeader_frame found
  exact ensureHeader_cached ready cached

/-- R100: CURRENT_HEADER after CURRENT_HEADER gives the same answer and changes nothing. -/
theorem currentHeader_again (b : Block) : currentHeader (currentHeader b).2 = currentHeader b := by
  rcases currentHeader_cases b with ⟨h, b1, found, answer⟩ | ⟨-, answer⟩
  · rw [answer, currentHeader, ensureHeader_again found]
  · rw [answer, answer]

/-- The block has this header cached. -/
structure Block.Caches (b : Block) (h : Header) : Prop where
  ready : b.st = .headerReady
  cached : b.hdr = some h

theorem Block.Caches.currentHeader_eq {b : Block} {h : Header} (caches : b.Caches h) :
    currentHeader b = (.header h, b) := by
  rw [currentHeader, ensureHeader_cached caches.ready caches.cached]

/-- R98: a RECEIVE, accepted or refused, leaves a cached header as it is. -/
theorem Block.Caches.exec_receive {s t : State} {h : Header} (caches : s.block.Caches h) {c : List Byte}
    (e : exec (.receive c) s = .next t) : t.block.Caches h := by
  rcases exec_receive_cases e with ⟨-, rfl⟩ | ⟨-, rfl⟩
  · have appended : receiveChunk c s.block = ingest c s.block :=
      receiveChunk_of_ne_exhausted (by rw [caches.ready]; decide) c
    rw [State.respond_block, State.withBlock_block, appended]
    exact ⟨caches.ready, caches.cached⟩
  · exact caches

/-- The same for RECEIVEs one after another. -/
theorem Block.Caches.execAll_receives {chunks : List (List Byte)} {s t : State} {h : Header} (caches : s.block.Caches h)
    (e : execAll (chunks.map .receive) s = .next t) : t.block.Caches h := by
  induction chunks generalizing s with
  | nil => cases e; exact caches
  | cons c chunks ih =>
    obtain ⟨u, received⟩ := exec_total (.receive c) s
    rw [List.map_cons, execAll_cons_of_next received] at e
    exact ih (caches.exec_receive received) e

/-- R99: a header that was answered is cached. -/
theorem caches_of_answered {s t : State} {h : Header} (e : exec .currentHeader s = .next t)
    (answered : t.transcript = s.transcript ++ [.answered .currentHeader (.header h)]) : t.block.Caches h := by
  cases e
  rcases currentHeader_cases s.block with ⟨x, b, found, answer⟩ | ⟨-, answer⟩
  · rw [answer] at answered ⊢
    cases List.append_cancel_left answered
    obtain ⟨-, -, ready, cached⟩ := ensureHeader_frame found
    exact ⟨ready, cached⟩
  · rw [answer] at answered
    cases List.append_cancel_left answered

/-- Settles O39. The second of two is the first again (`currentHeader_again`); and RECEIVEs leave the header that the
first one cached (`Block.Caches`). -/
theorem currentHeaderIsIdempotent : Obligations.CurrentHeaderIsIdempotent := by
  refine ⟨fun s t u first second => ?_, fun s t u v cs h _ first answered received again => ?_⟩
  · cases first
    cases second
    have same := currentHeader_again s.block
    obtain ⟨stream, cursor⟩ := currentHeader_frame s.block
    exact ⟨(currentHeader s.block).1, rfl, by simp [same], by simp [same], stream, cursor, currentHeader_rem s.block⟩
  · have caches := (caches_of_answered first answered).execAll_receives received
    cases again
    simp [caches.currentHeader_eq]

/-! ### The transition table -/

/-- R17, R18 in the table's words: the cached header of `HeaderReady` is the one at the cursor; else there is none. -/
theorem Block.Inv.cache {b : Block} (hi : b.Inv) :
    (b.st = .headerReady → ∃ h, StartsWithHeader b.live h ∧ b.hdr = some h) ∧
    (b.st ≠ .headerReady → b.hdr = none) := by
  refine ⟨fun ready => ?_, fun other => ?_⟩
  · obtain ⟨-, decoded⟩ := hi.ready_cache ready
    obtain ⟨h, cached⟩ := Option.isSome_iff_exists.mp (hi.ready_iff.mp ready)
    exact ⟨h, (startsWithHeader_iff _ _).mpr (decoded.symm.trans cached), cached⟩
  · rw [← Option.not_isSome_iff_eq_none, ← hi.ready_iff]
    exact other

theorem six_le_rem_of_headerOf_live {b : Block} {h : Header} (starts : headerOf b.live = some h) : 6 ≤ b.rem := by
  rw [← Block.live_length, ← headerOf_isSome, starts]
  rfl

/-- R103, the row of RECEIVE. -/
theorem receiveChunk_st (c : List Byte) (b : Block) (T : Nat) :
    (receiveChunk c b).st = tableSt b.st (.receive c) (receiveChunk c b).rem T := by
  rcases receiveChunk_cases c b with ⟨other, answer⟩ | ⟨exhausted, few, answer⟩ | ⟨h, exhausted, starts, answer⟩ <;>
    rw [answer, tableSt]
  · exact (if_neg fun both => other both.1).symm
  · exact (if_neg fun both => Nat.not_lt.mpr both.2 (rem_lt_of_headerOf_live_none few)).symm
  · exact (if_pos ⟨exhausted, six_le_rem_of_headerOf_live starts⟩).symm

/-- R103, the row of CURRENT_HEADER. -/
theorem currentHeader_st {b : Block} (hi : b.Inv) (T : Nat) :
    (currentHeader b).2.st = tableSt b.st .currentHeader b.rem T := by
  rw [currentHeader_of_inv hi, tableSt]
  cases starts : headerOf b.live with
  | none =>
    have few : b.rem < 6 := rem_lt_of_headerOf_live_none starts
    refine (if_neg ?_).symm
    rintro (ready | six)
    · exact absurd few (Nat.not_lt.mpr (hi.ready_cache ready).1)
    · exact absurd few (Nat.not_lt.mpr six)
  | some h => exact (if_pos (.inr (six_le_rem_of_headerOf_live starts))).symm

/-- R103, the row of PULL_PACKET: too few bytes for a header, too few for the packet, a whole packet. -/
theorem pullPacket_table {b : Block} (hi : b.Inv) {T : Nat} (length : ∀ h, StartsWithHeader b.live h → T = totalLen h) :
    (pullPacket b).2.st = tableSt b.st .pullPacket b.rem T ∧
      (pullPacket b).2.cursor = b.cursor + tableMove .pullPacket b.rem T := by
  rw [pullPacket_of_inv hi, tableSt, tableMove]
  cases starts : headerOf b.live with
  | none =>
    have few : b.rem < 6 := rem_lt_of_headerOf_live_none starts
    have other : b.st ≠ .headerReady := fun ready => absurd few (Nat.not_lt.mpr (hi.ready_cache ready).1)
    rw [if_pos ⟨other, few⟩, if_neg fun both => absurd few (Nat.not_lt.mpr both.1)]
    exact ⟨rfl, rfl⟩
  | some h =>
    obtain rfl := length h ((startsWithHeader_iff _ _).mpr starts)
    have six := six_le_rem_of_headerOf_live starts
    rw [if_neg fun both => absurd both.2 (Nat.not_lt.mpr six)]
    dsimp only
    by_cases short : b.rem < totalLen h
    · rw [if_pos short, if_pos short, if_neg fun both => absurd short (Nat.not_lt.mpr both.2)]
      exact ⟨rfl, rfl⟩
    · rw [if_neg short, if_neg short, if_pos ⟨six, Nat.not_lt.mp short⟩]
      exact ⟨rfl, rfl⟩

/-- Settles O41. The rows of the three extractor commands are the lemmas above, the other commands only answer; the
cache is as R17 and R18 say, which every command keeps. -/
theorem transitionTable : Obligations.TransitionTable := by
  intro i s t T hw hi room length e
  obtain ⟨cached, notCached⟩ := (exec_inv hw hi e).cache
  rw [← and_assoc]
  refine ⟨?_, cached, notCached⟩
  cases i with
  | receive c =>
    rw [exec_receive_room c s (room c rfl)] at e
    cases e
    exact ⟨receiveChunk_st c s.block T, receiveChunk_cursor c s.block⟩
  | currentHeader =>
    cases e
    exact ⟨currentHeader_st hi T, (currentHeader_frame s.block).2⟩
  | pullPacket =>
    cases e
    exact pullPacket_table hi length
  | ingest v => cases hw
  | advance n => cases hw
  | _ =>
    cases e
    exact ⟨rfl, rfl⟩

/-! ### Exhaustion and resumption -/

/-- R107: bytes that are exactly one packet. -/
theorem frameOne_of_exact {bytes : List Byte} {h : Header} (starts : StartsWithHeader bytes h)
    (exactly : bytes.length = totalLen h) : frameOne bytes = some (bytes, []) := by
  rw [frameOne_of_whole starts exactly.ge, ← exactly, List.take_length, List.drop_length]

/-- R104: a packet that lacks bytes at its end frames nothing, whether its header is whole or not. -/
theorem frameOne_of_incomplete {x y : List Byte} {h : Header} (more : y ≠ []) (starts : StartsWithHeader (x ++ y) h)
    (exactly : (x ++ y).length = totalLen h) : frameOne x = none := by
  by_cases few : x.length < 6
  · exact frameOne_of_few few
  · rw [startsWithHeader_iff, headerOf_append y (Nat.not_lt.mp few), ← startsWithHeader_iff] at starts
    refine frameOne_of_short starts ?_
    have := List.length_pos_iff.mpr more
    rw [List.length_append] at exactly
    omega

/-- A pull that finds no packet moves nothing, and leaves the state by the number of live bytes (R101). -/
theorem pullPacket_of_unframed {b : Block} (hi : b.Inv) (unframed : frameOne b.live = none) :
    (pullPacket b).1 = .absent ∧ (pullPacket b).2.live = b.live ∧
      (pullPacket b).2.st = if b.live.length < 6 then .exhausted else .headerReady := by
  rcases pullPacket_frames hi with ⟨-, answer⟩ | ⟨p, rest, first, -⟩
  · exact answer
  · cases unframed.symm.trans first

/-- A pull that finds a packet hands it out and leaves the bytes after it. -/
theorem pullPacket_of_framed {b : Block} (hi : b.Inv) {p rest : List Byte} (framed : frameOne b.live = some (p, rest)) :
    (pullPacket b).1 = .bytes p ∧ (pullPacket b).2.live = rest := by
  rcases pullPacket_frames hi with ⟨unframed, -⟩ | ⟨q, rest', first, answer⟩
  · cases unframed.symm.trans framed
  · cases first.symm.trans framed
    exact answer

/-- R101: a pull that answers `NONE` leaves stream and cursor. -/
theorem pullPacket_frame_of_absent {b : Block} (absent : (pullPacket b).1 = .absent) :
    (pullPacket b).2.stream = b.stream ∧ (pullPacket b).2.cursor = b.cursor := by
  rcases pullPacket_cases b with ⟨-, pulls⟩ | ⟨h, b1, found, -, pulls⟩ | ⟨h, b1, -, -, pulls⟩ <;> rw [pulls] at absent ⊢
  · exact ⟨rfl, rfl⟩
  · obtain ⟨stream, cursor, -, -⟩ := ensureHeader_frame found
    exact ⟨stream, cursor⟩
  · cases absent

/-- Settles O42. What is there frames nothing, so the first pull answers `NONE`; with the missing bytes the live bytes
are exactly one packet. -/
theorem exhaustionAndResumption : Obligations.ExhaustionAndResumption := by
  rintro s x y h hi unbounded rfl more starts exactly
  obtain ⟨absent, live, st⟩ := pullPacket_of_unframed hi (frameOne_of_incomplete more starts exactly)
  obtain ⟨stream, cursor⟩ := pullPacket_frame_of_absent absent
  have waiting : (pullPacket s.block).2.Inv := pullPacket_inv hi
  have completed : (receiveChunk y (pullPacket s.block).2).live = s.block.live ++ y := by
    rw [receiveChunk_live waiting, live]
  obtain ⟨handed, left⟩ := pullPacket_of_framed (receiveChunk_inv waiting y)
    (by rw [completed]; exact frameOne_of_exact starts exactly)
  refine ⟨_, _, _, exec_pullPacket s, by rw [absent]; rfl, stream, cursor, st,
    exec_receive_room y _ (hasRoom_of_unbounded unbounded _ _), rfl, exec_pullPacket _, ?_, ?_⟩
  · simp [handed]
  · rw [← Block.live_length]
    exact congrArg List.length left

end Sys2Proof.Machine

/-! PROOFS. 60_exceptions.md and 70_reset_and_hazards.md: answers that are not `OK` (R126, R121), and a command tried
again with nothing fed (R149). -/

namespace Sys2Proof.Machine

theorem currentHeader_absent_of_not_ok {b : Block} (notOk : (currentHeader b).1.status ≠ .ok) :
    (currentHeader b).1 = .absent := by
  rcases currentHeader_cases b with ⟨h, b1, -, answer⟩ | ⟨-, answer⟩ <;> rw [answer] at notOk ⊢
  exact absurd rfl notOk

theorem pullPacket_absent_of_not_ok {b : Block} (notOk : (pullPacket b).1.status ≠ .ok) :
    (pullPacket b).1 = .absent := by
  rcases pullPacket_cases b with ⟨-, answer⟩ | ⟨h, b1, -, -, answer⟩ | ⟨h, b1, -, -, answer⟩ <;>
    rw [answer] at notOk ⊢
  exact absurd rfl notOk

theorem peekBytes_absent_of_not_ok {off len : Nat} {b : Block} (notOk : (peekBytes off len b).status ≠ .ok) :
    peekBytes off len b = .absent := by
  by_cases enough : off + len ≤ b.rem
  · rw [peekBytes_present enough] at notOk
    exact absurd rfl notOk
  · exact peekBytes_absent (Nat.not_le.mp enough)

/-- A CURRENT_HEADER that answers `NONE` leaves the block (D7). -/
theorem currentHeader_of_absent {b : Block} (absent : (currentHeader b).1 = .absent) :
    currentHeader b = (.absent, b) := by
  rcases currentHeader_cases b with ⟨h, b1, -, answer⟩ | ⟨-, answer⟩
  · rw [answer] at absent
    cases absent
  · exact answer

/-- What a command did that was answered but not `OK`: RECEIVE was refused, the reserved opcode did nothing, or
CURRENT_HEADER, PULL_PACKET or PEEK found too few bytes. -/
theorem answered_not_ok_cases {i : Instr} {s t : State} {r : Response} (e : exec i s = .next t)
    (answered : t.transcript = s.transcript ++ [.answered i r]) (notOk : r.status ≠ .ok) :
    (t.block = s.block ∧ (r = .full ∨ r = .illegal)) ∨
    (i = .currentHeader ∧ t.block = s.block ∧ (currentHeader s.block).1 = .absent) ∨
    (i = .pullPacket ∧ t.block = (pullPacket s.block).2 ∧ (pullPacket s.block).1 = .absent) ∨
    (∃ off len, i = .peek off len ∧ t.block = s.block ∧ peekBytes off len s.block = .absent) := by
  obtain ⟨b, r, rfl, did⟩ := exec_command_cases i s t (wellFormed_of_answered e answered) e
  cases List.append_cancel_left answered
  rcases did with ⟨c, -, -, -, rfl⟩ | ⟨c, -, -, rfl, rfl⟩ | ⟨rfl, rfl, rfl⟩ | ⟨rfl, rfl, rfl⟩ | ⟨-, -, rfl⟩ |
    ⟨off, len, rfl, rfl, rfl⟩ | ⟨slice, -, -, rfl⟩ | ⟨-, -, rfl⟩ | ⟨-, rfl, rfl⟩
  · exact absurd rfl notOk
  · exact .inl ⟨rfl, .inl rfl⟩
  · have absent := currentHeader_absent_of_not_ok notOk
    exact .inr (.inl ⟨rfl, congrArg Prod.snd (currentHeader_of_absent absent), absent⟩)
  · exact .inr (.inr (.inl ⟨rfl, rfl, pullPacket_absent_of_not_ok notOk⟩))
  · exact absurd rfl notOk
  · exact .inr (.inr (.inr ⟨off, len, rfl, rfl, peekBytes_absent_of_not_ok notOk⟩))
  · exact absurd rfl notOk
  · exact absurd rfl notOk
  · exact .inl ⟨rfl, .inr rfl⟩

/-- Settles O52. Only a pull changes the block when it answers `NONE`, and it moves nothing
(`pullPacket_frame_of_absent`). -/
theorem nonOkAnswersArePrecise : Obligations.NonOkAnswersArePrecise := by
  intro i s t r e answered notOk
  have untouched (same : t.block = s.block) : t.block.stream = s.block.stream ∧ t.block.cursor = s.block.cursor ∧
      (i ≠ .pullPacket → t.block = s.block) := ⟨by rw [same], by rw [same], fun _ => same⟩
  rcases answered_not_ok_cases e answered notOk with
    ⟨same, -⟩ | ⟨-, same, -⟩ | ⟨rfl, pulls, absent⟩ | ⟨off, len, -, same, -⟩
  · exact untouched same
  · exact untouched same
  · obtain ⟨stream, cursor⟩ := pullPacket_frame_of_absent absent
    rw [pulls]
    exact ⟨stream, cursor, fun other => absurd rfl other⟩
  · exact untouched same

/-- No header is found only where none is at the cursor, so none is found in `Exhausted` either. -/
theorem ensureHeader_exhausted_of_none {b : Block} (missing : ensureHeader b = none) :
    ensureHeader { b with st := .exhausted } = none := by
  unfold ensureHeader at missing
  split at missing
  · cases missing
  · exact missing

/-- R149: a pull that answered `NONE` answers it again, and then changes nothing. -/
theorem pullPacket_again {b : Block} (absent : (pullPacket b).1 = .absent) :
    pullPacket (pullPacket b).2 = (.absent, (pullPacket b).2) := by
  rcases pullPacket_cases b with ⟨missing, pulls⟩ | ⟨h, b1, found, short, pulls⟩ | ⟨h, b1, -, -, pulls⟩ <;>
    rw [pulls] at absent ⊢
  · exact pullPacket_of_none (ensureHeader_exhausted_of_none missing)
  · obtain ⟨stream, cursor, -, -⟩ := ensureHeader_frame found
    have same : b1.rem = b.rem := by rw [Block.rem, stream, cursor]; rfl
    exact pullPacket_of_partial (ensureHeader_again found) (same ▸ short)
  · cases absent

/-- Settles O53. CURRENT_HEADER and PEEK left the block as it was, and a pull leaves one that is pulled from in vain
again (`pullPacket_again`). -/
theorem retryWithoutFeedingNeverHelps : Obligations.RetryWithoutFeedingNeverHelps := by
  intro i s t e answered
  rcases answered_not_ok_cases e answered (by decide) with
    ⟨-, full | illegal⟩ | ⟨rfl, same, absent⟩ | ⟨rfl, pulls, absent⟩ | ⟨off, len, rfl, same, absent⟩
  · cases full
  · cases illegal
  · have again := currentHeader_of_absent (same ▸ absent)
    refine ⟨_, exec_currentHeader t, ?_, ?_⟩ <;> rw [again] <;> rfl
  · have again := pulls ▸ pullPacket_again absent
    exact ⟨_, exec_pullPacket_of_eq again, rfl, rfl⟩
  · rw [← same] at absent
    refine ⟨_, exec_peek off len t, ?_, rfl⟩
    rw [absent]
    rfl

end Sys2Proof.Machine
